-- ==== Sys2Proof/Word.lean ====
section
/-! DEFINITION. The bit vectors and index types of the core (00_scope.md R7, R9, R10): bytes, 16-bit words, and the
names of the sixteen registers and sixteen keys. -/

namespace Sys2Proof

/-- `bits8` of 00_scope.md R9: a general register, a timer, a byte of memory. -/
abbrev Byte := BitVec 8

/-- `bits16` of 00_scope.md R9: an instruction word, I, PC, a stack slot. -/
abbrev Word := BitVec 16

/-- The name of a general register V0 to VF (10_state.md R20). -/
abbrev Reg := Fin 16

/-- The name of a key 0x0 to 0xF (10_state.md R37). -/
abbrev Key := Fin 16

end Sys2Proof
end

