-- ==== Sys2Proof/Syntax.lean ====
section
/-! DEFINITION. The instruction set as syntax: one constructor per row of spec/opcode_table.json, in the table's order
(30_encoding.md R83). The fields are those of 00_scope.md R16. -/

namespace Sys2Proof

/-- The 35 instructions of 30_encoding.md R83. -/
inductive Instr where
  /-- 00E0 CLS (44_display.md R160). -/
  | cls
  /-- 00EE RET (40_control_flow.md R101). -/
  | ret
  /-- 0NNN SYS nnn, other than 00E0 and 00EE (40_control_flow.md R100). -/
  | sys (nnn : BitVec 12)
  /-- 1NNN JP nnn (40_control_flow.md R102). -/
  | jp (nnn : BitVec 12)
  /-- 2NNN CALL nnn (40_control_flow.md R103). -/
  | call (nnn : BitVec 12)
  /-- 3XNN SE Vx, nn (40_control_flow.md R104). -/
  | seImm (x : Reg) (nn : Byte)
  /-- 4XNN SNE Vx, nn (40_control_flow.md R105). -/
  | sneImm (x : Reg) (nn : Byte)
  /-- 5XY0 SE Vx, Vy (40_control_flow.md R106). -/
  | seReg (x y : Reg)
  /-- 6XNN LD Vx, nn (41_arith_logic.md R121). -/
  | ldImm (x : Reg) (nn : Byte)
  /-- 7XNN ADD Vx, nn (41_arith_logic.md R122). -/
  | addImm (x : Reg) (nn : Byte)
  /-- 8XY0 LD Vx, Vy (41_arith_logic.md R123). -/
  | ldReg (x y : Reg)
  /-- 8XY1 OR Vx, Vy (41_arith_logic.md R124). -/
  | orReg (x y : Reg)
  /-- 8XY2 AND Vx, Vy (41_arith_logic.md R125). -/
  | andReg (x y : Reg)
  /-- 8XY3 XOR Vx, Vy (41_arith_logic.md R126). -/
  | xorReg (x y : Reg)
  /-- 8XY4 ADD Vx, Vy (41_arith_logic.md R127). -/
  | addReg (x y : Reg)
  /-- 8XY5 SUB Vx, Vy (41_arith_logic.md R128). -/
  | subReg (x y : Reg)
  /-- 8XY6 SHR Vx, Vy (41_arith_logic.md R129). -/
  | shr (x y : Reg)
  /-- 8XY7 SUBN Vx, Vy (41_arith_logic.md R130). -/
  | subn (x y : Reg)
  /-- 8XYE SHL Vx, Vy (41_arith_logic.md R131). -/
  | shl (x y : Reg)
  /-- 9XY0 SNE Vx, Vy (40_control_flow.md R107). -/
  | sneReg (x y : Reg)
  /-- ANNN LD I, nnn (42_address_register.md R140). -/
  | ldI (nnn : BitVec 12)
  /-- BNNN JP V0, nnn (40_control_flow.md R108). -/
  | jpV0 (nnn : BitVec 12)
  /-- CXNN RND Vx, nn (41_arith_logic.md R132). -/
  | rnd (x : Reg) (nn : Byte)
  /-- DXYN DRW Vx, Vy, n (44_display.md R161). -/
  | drw (x y : Reg) (n : BitVec 4)
  /-- EX9E SKP Vx (45_input.md R170). -/
  | skp (x : Reg)
  /-- EXA1 SKNP Vx (45_input.md R171). -/
  | sknp (x : Reg)
  /-- FX07 LD Vx, DT (46_timers.md R180). -/
  | ldVxDT (x : Reg)
  /-- FX0A LD Vx, K (45_input.md R172). -/
  | ldVxK (x : Reg)
  /-- FX15 LD DT, Vx (46_timers.md R181). -/
  | ldDTVx (x : Reg)
  /-- FX18 LD ST, Vx (46_timers.md R182). -/
  | ldSTVx (x : Reg)
  /-- FX1E ADD I, Vx (42_address_register.md R141). -/
  | addIVx (x : Reg)
  /-- FX29 LD F, Vx (42_address_register.md R142). -/
  | ldFVx (x : Reg)
  /-- FX33 LD B, Vx (43_memory_block.md R152). -/
  | ldBVx (x : Reg)
  /-- FX55 LD [I], Vx (43_memory_block.md R150). -/
  | storeRegs (x : Reg)
  /-- FX65 LD Vx, [I] (43_memory_block.md R151). -/
  | loadRegs (x : Reg)
  deriving DecidableEq, Repr

end Sys2Proof
end

