-- ==== Sys2Proof/WellFormed.lean ====
section
/-! DEFINITION. Which terms of `Instr` are instructions. The types of the fields already hold every operand within its
range (30_encoding.md R85, R86: all values legal); what is left to check is that SYS does not take the two words that
30_encoding.md R84 gives to CLS and RET. -/

namespace Sys2Proof

/-- SYS does not stand for the word 00E0, which is CLS (30_encoding.md R84). -/
def sysIsNotCls (nnn : BitVec 12) : Bool := nnn != 0x0E0#12

/-- SYS does not stand for the word 00EE, which is RET (30_encoding.md R84). -/
def sysIsNotRet (nnn : BitVec 12) : Bool := nnn != 0x0EE#12

/-- The instruction has a word of its own (30_encoding.md R83, R84). -/
def Instr.wellFormed : Instr → Bool
  | .cls => true
  | .ret => true
  | .sys nnn => sysIsNotCls nnn && sysIsNotRet nnn
  | .jp _ => true
  | .call _ => true
  | .seImm _ _ => true
  | .sneImm _ _ => true
  | .seReg _ _ => true
  | .ldImm _ _ => true
  | .addImm _ _ => true
  | .ldReg _ _ => true
  | .orReg _ _ => true
  | .andReg _ _ => true
  | .xorReg _ _ => true
  | .addReg _ _ => true
  | .subReg _ _ => true
  | .shr _ _ => true
  | .subn _ _ => true
  | .shl _ _ => true
  | .sneReg _ _ => true
  | .ldI _ => true
  | .jpV0 _ => true
  | .rnd _ _ => true
  | .drw _ _ _ => true
  | .skp _ => true
  | .sknp _ => true
  | .ldVxDT _ => true
  | .ldVxK _ => true
  | .ldDTVx _ => true
  | .ldSTVx _ => true
  | .addIVx _ => true
  | .ldFVx _ => true
  | .ldBVx _ => true
  | .storeRegs _ => true
  | .loadRegs _ => true

end Sys2Proof
end

