-- ==== Sys2Proof/Decode.lean ====
section
/-! DEFINITION. Decoding and encoding (30_encoding.md R80 to R94). `decodeWord` is the decoder of R84 on a 16-bit word,
`decode` the same on bytes as memory holds them, `encode` the inverse written from the formats of R81.
The spec marks the bit patterns as its own general knowledge, G1; the model follows its rules (log 10). -/

namespace Sys2Proof

/-- Why bytes are no instruction. -/
inductive Reject where
  /-- Fewer than the two bytes every instruction has (30_encoding.md R80). -/
  | truncated
  /-- A word that 30_encoding.md R84 assigns to no row: UnknownInstruction (R90). -/
  | unknownInstruction (w : Word)
  deriving DecidableEq, Repr

/-! The fields of 00_scope.md R16. -/

/-- The register that a nibble names (30_encoding.md R86). -/
def regOfNibble (b : BitVec 4) : Reg := ⟨b.toNat, b.isLt⟩

/-- The nibble that names a register (30_encoding.md R86). -/
def nibbleOfReg (r : Reg) : BitVec 4 := BitVec.ofNat 4 r.val

/-- `op = insn[15:12]`. -/
def fieldOp (w : Word) : BitVec 4 := w.extractLsb' 12 4

/-- `x = insn[11:8]`. -/
def fieldX (w : Word) : Reg := regOfNibble (w.extractLsb' 8 4)

/-- `y = insn[7:4]`. -/
def fieldY (w : Word) : Reg := regOfNibble (w.extractLsb' 4 4)

/-- `n = insn[3:0]`. -/
def fieldN (w : Word) : BitVec 4 := w.extractLsb' 0 4

/-- `nn = insn[7:0]`. -/
def fieldNN (w : Word) : Byte := w.extractLsb' 0 8

/-- `nnn = insn[11:0]`. -/
def fieldNNN (w : Word) : BitVec 12 := w.extractLsb' 0 12

/-- Class 0: the whole word selects (30_encoding.md R84). -/
def decodeClass0 (w : Word) : Instr :=
  if w = 0x00E0#16 then .cls
  else if w = 0x00EE#16 then .ret
  else .sys (fieldNNN w)

/-- Class 8: the last nibble selects (30_encoding.md R84). -/
def decodeClass8 (w : Word) : Except Reject Instr :=
  let x := fieldX w
  let y := fieldY w
  match (fieldN w).toNat with
  | 0x0 => .ok (.ldReg x y)
  | 0x1 => .ok (.orReg x y)
  | 0x2 => .ok (.andReg x y)
  | 0x3 => .ok (.xorReg x y)
  | 0x4 => .ok (.addReg x y)
  | 0x5 => .ok (.subReg x y)
  | 0x6 => .ok (.shr x y)
  | 0x7 => .ok (.subn x y)
  | 0xE => .ok (.shl x y)
  | _ => .error (.unknownInstruction w)

/-- Class E: the last byte selects (30_encoding.md R84). -/
def decodeClassE (w : Word) : Except Reject Instr :=
  if fieldNN w = 0x9E#8 then .ok (.skp (fieldX w))
  else if fieldNN w = 0xA1#8 then .ok (.sknp (fieldX w))
  else .error (.unknownInstruction w)

/-- Class F: the last byte selects (30_encoding.md R84). -/
def decodeClassF (w : Word) : Except Reject Instr :=
  let x := fieldX w
  if fieldNN w = 0x07#8 then .ok (.ldVxDT x)
  else if fieldNN w = 0x0A#8 then .ok (.ldVxK x)
  else if fieldNN w = 0x15#8 then .ok (.ldDTVx x)
  else if fieldNN w = 0x18#8 then .ok (.ldSTVx x)
  else if fieldNN w = 0x1E#8 then .ok (.addIVx x)
  else if fieldNN w = 0x29#8 then .ok (.ldFVx x)
  else if fieldNN w = 0x33#8 then .ok (.ldBVx x)
  else if fieldNN w = 0x55#8 then .ok (.storeRegs x)
  else if fieldNN w = 0x65#8 then .ok (.loadRegs x)
  else .error (.unknownInstruction w)

/-- The decoder of 30_encoding.md R84, by the leading nibble. The last arm is class F: a nibble has no other value. -/
def decodeWord (w : Word) : Except Reject Instr :=
  match (fieldOp w).toNat with
  | 0x0 => .ok (decodeClass0 w)
  | 0x1 => .ok (.jp (fieldNNN w))
  | 0x2 => .ok (.call (fieldNNN w))
  | 0x3 => .ok (.seImm (fieldX w) (fieldNN w))
  | 0x4 => .ok (.sneImm (fieldX w) (fieldNN w))
  | 0x5 => if fieldN w = 0#4 then .ok (.seReg (fieldX w) (fieldY w)) else .error (.unknownInstruction w)
  | 0x6 => .ok (.ldImm (fieldX w) (fieldNN w))
  | 0x7 => .ok (.addImm (fieldX w) (fieldNN w))
  | 0x8 => decodeClass8 w
  | 0x9 => if fieldN w = 0#4 then .ok (.sneReg (fieldX w) (fieldY w)) else .error (.unknownInstruction w)
  | 0xA => .ok (.ldI (fieldNNN w))
  | 0xB => .ok (.jpV0 (fieldNNN w))
  | 0xC => .ok (.rnd (fieldX w) (fieldNN w))
  | 0xD => .ok (.drw (fieldX w) (fieldY w) (fieldN w))
  | 0xE => decodeClassE w
  | _ => decodeClassF w

/-- The word of two bytes, the one at the lower address high (20_memory.md R62). -/
def wordOfBytes (hi lo : Byte) : Word := hi ++ lo

/-- Decoding bytes as memory holds them: an instruction and the bytes after it (30_encoding.md R80; 20_memory.md R62). -/
def decode : List Byte → Except Reject (Instr × List Byte)
  | hi :: lo :: rest =>
    match decodeWord (wordOfBytes hi lo) with
    | .ok i => .ok (i, rest)
    | .error r => .error r
  | [_] => .error .truncated
  | [] => .error .truncated

/-! The formats of 30_encoding.md R81. -/

/-- Format NNN. -/
def formatNNN (op : BitVec 4) (nnn : BitVec 12) : Word := op ++ nnn

/-- Format XNN, and format X with a fixed last byte. -/
def formatXNN (op : BitVec 4) (x : Reg) (nn : Byte) : Word := op ++ nibbleOfReg x ++ nn

/-- Format XYN, and format XY with a fixed last nibble. -/
def formatXYN (op : BitVec 4) (x y : Reg) (n : BitVec 4) : Word := op ++ nibbleOfReg x ++ nibbleOfReg y ++ n

/-- The word of an instruction (30_encoding.md R81, R83). -/
def encode : Instr → Word
  | .cls => 0x00E0#16
  | .ret => 0x00EE#16
  | .sys nnn => formatNNN 0x0#4 nnn
  | .jp nnn => formatNNN 0x1#4 nnn
  | .call nnn => formatNNN 0x2#4 nnn
  | .seImm x nn => formatXNN 0x3#4 x nn
  | .sneImm x nn => formatXNN 0x4#4 x nn
  | .seReg x y => formatXYN 0x5#4 x y 0x0#4
  | .ldImm x nn => formatXNN 0x6#4 x nn
  | .addImm x nn => formatXNN 0x7#4 x nn
  | .ldReg x y => formatXYN 0x8#4 x y 0x0#4
  | .orReg x y => formatXYN 0x8#4 x y 0x1#4
  | .andReg x y => formatXYN 0x8#4 x y 0x2#4
  | .xorReg x y => formatXYN 0x8#4 x y 0x3#4
  | .addReg x y => formatXYN 0x8#4 x y 0x4#4
  | .subReg x y => formatXYN 0x8#4 x y 0x5#4
  | .shr x y => formatXYN 0x8#4 x y 0x6#4
  | .subn x y => formatXYN 0x8#4 x y 0x7#4
  | .shl x y => formatXYN 0x8#4 x y 0xE#4
  | .sneReg x y => formatXYN 0x9#4 x y 0x0#4
  | .ldI nnn => formatNNN 0xA#4 nnn
  | .jpV0 nnn => formatNNN 0xB#4 nnn
  | .rnd x nn => formatXNN 0xC#4 x nn
  | .drw x y n => formatXYN 0xD#4 x y n
  | .skp x => formatXNN 0xE#4 x 0x9E#8
  | .sknp x => formatXNN 0xE#4 x 0xA1#8
  | .ldVxDT x => formatXNN 0xF#4 x 0x07#8
  | .ldVxK x => formatXNN 0xF#4 x 0x0A#8
  | .ldDTVx x => formatXNN 0xF#4 x 0x15#8
  | .ldSTVx x => formatXNN 0xF#4 x 0x18#8
  | .addIVx x => formatXNN 0xF#4 x 0x1E#8
  | .ldFVx x => formatXNN 0xF#4 x 0x29#8
  | .ldBVx x => formatXNN 0xF#4 x 0x33#8
  | .storeRegs x => formatXNN 0xF#4 x 0x55#8
  | .loadRegs x => formatXNN 0xF#4 x 0x65#8

/-- The high byte of a word, the one at the lower address (20_memory.md R62). -/
def highByte (w : Word) : Byte := w.extractLsb' 8 8

/-- The low byte of a word, the one at the higher address (20_memory.md R62). -/
def lowByte (w : Word) : Byte := w.extractLsb' 0 8

/-- The word whose bits are `w`, of which the table gives `nbits` (spec/opcode_table.json: one 16-bit word a row, bit 0
its least significant bit); bits above `nbits` are 0. -/
def tableWord (nbits w : Nat) : Word := BitVec.ofNat 16 (w % 2 ^ nbits)

/-- What the decoder reads from an instruction whose bits are `w`, laid out as memory holds it. -/
def decodeTableWord (nbits w : Nat) : Option Instr :=
  match decode [highByte (tableWord nbits w), lowByte (tableWord nbits w)] with
  | .ok (i, _) => some i
  | .error _ => none

end Sys2Proof
end

