-- ==== Sys2Proof/Config.lean ====
section
/-! DEFINITION. What is fixed for one machine and what the spec leaves free (00_scope.md R8, R17, R18): the parameter
SHIFT_SOURCE as a type, the random byte of CXNN and the host's choice of operations as opaque constants. -/

namespace Sys2Proof.Config

/-- The two values of the parameter SHIFT_SOURCE (00_scope.md R8; 92_eei_decisions.md D3): which register SHR and SHL
shift. -/
inductive ShiftSource where
  /-- Shift V[x] in place and ignore V[y]. -/
  | vx
  /-- Shift V[y] into V[x]. -/
  | vy
  deriving DecidableEq, Repr

/-- The parameters of the machine, fixed for its life (00_scope.md R8, R18). State carries them unchanged, because
`exec` takes nothing but an instruction and a state. DESIGN CHOICE (log 4). -/
structure Params where
  /-- SHIFT_SOURCE. -/
  shiftSource : ShiftSource
  deriving DecidableEq, Repr

/-- `rand` of 00_scope.md R8 and 41_arith_logic.md R132, "a free 8-bit input of every Cycle operation, under no law":
the byte of the n-th draw. It has no body, so nothing can be proved about its values. DESIGN CHOICE (log 3). -/
opaque rand : Nat → Byte

/-- The operations of 60_exceptions.md R220 through which the host drives the core. -/
inductive HostOp where
  /-- Reset (70_reset_and_hazards.md R240). -/
  | reset
  /-- LoadProgram (70_reset_and_hazards.md R245). -/
  | loadProgram (bytes : List Byte)
  /-- Cycle (60_exceptions.md R200). -/
  | cycle
  /-- TickTimers (60_exceptions.md R213). -/
  | tickTimers
  /-- SetKey (60_exceptions.md R225). -/
  | setKey (k : Key) (pressed : Bool)
  /-- GetPixel, GetStatus or an observation of 60_exceptions.md R228: the host looks and changes nothing. -/
  | observe
  deriving DecidableEq, Repr, Inhabited

/-- The operation that a free host invokes at its n-th turn: the free interleaving of 00_scope.md R17 and the liberties of
60_exceptions.md R229. It has no body, so it may be any sequence: ticks and key changes without end, a host that stops
invoking Cycle. DESIGN CHOICE (log 5). -/
opaque hostChoice : Nat → HostOp

/-- How the host goes on once its scheduled operations are served (log 5). -/
inductive HostMode where
  /-- It invokes whatever `hostChoice` says: the host of 60_exceptions.md R229. -/
  | free
  /-- It invokes Cycle and nothing else: a premise about the host that a claim may take (60_exceptions.md R229). -/
  | cycleOnly
  deriving DecidableEq, Repr

end Sys2Proof.Config
end

