-- ==== Sys2Proof/Machine/Params.lean ====
section
/-! DEFINITION. The value that the parameters of the machine have at reset (00_scope.md R8). -/

namespace Sys2Proof.Machine

/-- SHIFT_SOURCE has the default `VX` (00_scope.md R8; 92_eei_decisions.md D3). DESIGN CHOICE (log 4). -/
def defaultParams : Config.Params := { shiftSource := .vx }

end Sys2Proof.Machine
end

