-- ==== Sys2Proof/Machine/State.lean ====
section
/-! DEFINITION. The state of the core as plain data: every piece of 10_state.md, and six fields of the model's own
(`params`, `draws`, `sched`, `host`, `turns`, `loaded`); what a step can stop with; the state after reset. -/

namespace Sys2Proof.Machine

/-- The six causes of 60_exceptions.md R203. All but `programTooLarge` are cycle faults. -/
inductive Cause where
  /-- A byte address the operation would access exceeds 0xFFF. -/
  | addressOutOfRange
  /-- A CALL with sixteen return addresses on the stack. -/
  | stackOverflow
  /-- A RET with the stack empty. -/
  | stackUnderflow
  /-- A word that is not one of rows 2 to 35 of 30_encoding.md R83. -/
  | unknownInstruction
  /-- LoadProgram with more than 3584 bytes; never a cycle fault. -/
  | programTooLarge
  /-- A store of the CPU below 0x200. -/
  | writeProtected
  deriving DecidableEq, Repr

/-- The execution status of 10_state.md R40. -/
inductive Status where
  /-- RUNNING. -/
  | running
  /-- AWAIT_KEY(x): FX0A waits for a key, to be written to V[x]. -/
  | awaitKey (x : Reg)
  /-- FAULTED, left by Reset only. -/
  | faulted
  deriving DecidableEq, Repr

/-- The fault record of 10_state.md R41, meaningful only while the status is FAULTED. -/
structure FaultRecord where
  /-- One of the cycle-fault causes; none before any fault. -/
  cause : Option Cause
  /-- The address of the faulting instruction. -/
  fpc : Word
  /-- The instruction word, 0x0000 for a fault of the fetch. -/
  finsn : Word
  /-- The offending memory address, 0 where the cause has none. -/
  faddr : Nat
  deriving DecidableEq, Repr

/-- `Mem` of 10_state.md R34: the bytes that differ from the reset contents, by address. Its canonical form is
`Memory.wf` (Machine/Ops.lean). -/
abbrev Memory := List Host.Cell

/-- `FB` of 10_state.md R35: 32 rows of 64 pixels; `fb[y][x]` is the pixel in row y and column x, `true` meaning on. -/
abbrev Framebuffer := Vector (Vector Bool 64) 32

/-- The state of the core (10_state.md R20 to R41). -/
structure State where
  /-- V0 to VF (R20). -/
  v : Vector Byte 16
  /-- The address register I (R23). -/
  i : Word
  /-- The program counter PC (R25). -/
  pc : Word
  /-- The stack pointer SP: how many return addresses the stack holds (R29). -/
  sp : Fin 17
  /-- The sixteen stack slots (R29). -/
  stack : Vector Word 16
  /-- The delay timer DT (R31). -/
  dt : Byte
  /-- The sound timer ST (R32). -/
  st : Byte
  /-- The memory Mem (R34). -/
  mem : Memory
  /-- The framebuffer FB (R35). -/
  fb : Framebuffer
  /-- The key latch Key, `true` meaning pressed (R37). -/
  key : Vector Bool 16
  /-- The execution status (R40). -/
  status : Status
  /-- The fault record (R41). -/
  record : FaultRecord
  /-- The model's own: the parameters of the machine, written by no step (log 4). -/
  params : Config.Params
  /-- The model's own: how many random bytes have been drawn (log 3). -/
  draws : Nat
  /-- The model's own: host operations to be served before any other, oldest first (log 5). -/
  sched : List Config.HostOp
  /-- The model's own: how the host goes on when `sched` is empty (log 5). -/
  host : Config.HostMode
  /-- The model's own: how many operations a free host has chosen (log 5). -/
  turns : Nat
  /-- The model's own: a LoadProgram has been invoked since the last Reset (log 19). -/
  loaded : Bool
  deriving DecidableEq, Repr

/-- Why the machine stops. No instruction stops it: a fault of the core is a next state with status FAULTED
(60_exceptions.md R204). -/
inductive Fault where
  /-- Raised by `step` when the host's next operation is a LoadProgram and the state is none in which
  70_reset_and_hazards.md R247 defines one. SAFE: the model has no move where the spec has none (log 6). -/
  | loadOutsideBoot
  deriving DecidableEq, Repr

/-- Why an instruction has no meaning. -/
inductive Refusal where
  /-- Answered by `exec` for an instruction that has no meaning yet; no arm does so. SAFE. -/
  | notModelled (mnemonic : String)
  deriving DecidableEq, Repr

/-- The state after Reset (10_state.md R45; 70_reset_and_hazards.md R240). Memory lists nothing: every byte is as Reset
leaves it. The stack slots and the fault record, which are not observable then, hold 0 and none. DESIGN CHOICE (logs 1
and 2). -/
def State.reset : State where
  v := Vector.replicate 16 0x00#8
  i := 0x0000#16
  pc := 0x0200#16
  sp := 0
  stack := Vector.replicate 16 0x0000#16
  dt := 0x00#8
  st := 0x00#8
  mem := []
  fb := Vector.replicate 32 (Vector.replicate 64 false)
  key := Vector.replicate 16 false
  status := .running
  record := { cause := none, fpc := 0x0000#16, finsn := 0x0000#16, faddr := 0 }
  params := defaultParams
  draws := 0
  sched := []
  host := .free
  turns := 0
  loaded := false

end Sys2Proof.Machine
end

