-- ==== Sys2Proof/Machine/Ops.lean ====
section
/-! DEFINITION. The named operations over memory, registers, stack, pixels and the program counter, and fault entry:
everything the meanings are built from. -/

namespace Sys2Proof.Machine

/-! ## Memory (20_memory.md) -/

/-- The 80 fontset bytes (20_memory.md R53), five a glyph, glyph 0 first. The spec marks them as its general knowledge,
G2 (log 10). -/
def fontset : List Byte :=
  [0xF0, 0x90, 0x90, 0x90, 0xF0,  0x20, 0x60, 0x20, 0x20, 0x70,
   0xF0, 0x10, 0xF0, 0x80, 0xF0,  0xF0, 0x10, 0xF0, 0x10, 0xF0,
   0x90, 0x90, 0xF0, 0x10, 0x10,  0xF0, 0x80, 0xF0, 0x10, 0xF0,
   0xF0, 0x80, 0xF0, 0x90, 0xF0,  0xF0, 0x10, 0x20, 0x40, 0x40,
   0xF0, 0x90, 0xF0, 0x90, 0xF0,  0xF0, 0x90, 0xF0, 0x10, 0xF0,
   0xF0, 0x90, 0xF0, 0x90, 0x90,  0xE0, 0x90, 0xE0, 0x90, 0xE0,
   0xF0, 0x80, 0x80, 0x80, 0xF0,  0xE0, 0x90, 0x90, 0x90, 0xE0,
   0xF0, 0x80, 0xF0, 0x80, 0xF0,  0xF0, 0x80, 0xF0, 0x80, 0x80]

/-- What Reset leaves at an address, and so what an unlisted address reads as: the fontset at 0x050 to 0x09F and 0x00
elsewhere (10_state.md R45; 20_memory.md R51, R53). -/
def resetByte (a : Nat) : Byte :=
  if 0x050 ≤ a ∧ a ≤ 0x09F then fontset.getD (a - 0x050) 0x00 else 0x00

/-- The canonical form of memory: addresses strictly rising, each one of the 4096, and no entry equal to what the
address reads as unlisted. -/
abbrev Memory.wf (m : Memory) : Prop :=
  m.Pairwise (fun c d => c.1 < d.1) ∧ ∀ c ∈ m, c.1 ≤ 0xFFF ∧ c.2 ≠ resetByte c.1

/-- `Mem[a]` (00_scope.md R12), with no check of `a`. -/
def memGet : Memory → Nat → Byte
  | [], a => resetByte a
  | c :: m, a => if c.1 = a then c.2 else memGet m a

/-- The memory without an entry for `a`. -/
def memErase (m : Memory) (a : Nat) : Memory := m.filter fun c => c.1 ≠ a

/-- The memory with an entry for `a` before the first higher address. -/
def memInsert : Memory → Nat → Byte → Memory
  | [], a, b => [(a, b)]
  | c :: m, a, b => if a < c.1 then (a, b) :: c :: m else c :: memInsert m a b

/-- `Mem[a] <- b`, with no check of `a`; it keeps the canonical form. -/
def memSet (m : Memory) (a : Nat) (b : Byte) : Memory :=
  if b = resetByte a then memErase m a else memInsert (memErase m a) a b

/-- `MemRead(addr, 1)` (20_memory.md R54); the error is the address that AddressOutOfRange reports. -/
def memRead (m : Memory) (a : Nat) : Except Nat Byte :=
  if a > 0xFFF then .error a else .ok (memGet m a)

/-- `MemWrite(addr, 1, v)` (20_memory.md R55). -/
def memWrite (m : Memory) (a : Nat) (b : Byte) : Except Nat Memory :=
  if a > 0xFFF then .error a else .ok (memSet m a b)

/-- `MemRead(addr, 2)`, big-endian (20_memory.md R56). -/
def memReadWord (m : Memory) (a : Nat) : Except Nat Word :=
  match memRead m a with
  | .error e => .error e
  | .ok hi =>
    match memRead m (a + 1) with
    | .error e => .error e
    | .ok lo => .ok (wordOfBytes hi lo)

/-- `CpuStore(addr, v)` (20_memory.md R60); the error is the cause and the address it reports. -/
def cpuStore (m : Memory) (a : Nat) (b : Byte) : Except (Cause × Nat) Memory :=
  if a > 0xFFF then .error (.addressOutOfRange, a)
  else if a < 0x200 then .error (.writeProtected, a)
  else
    match memWrite m a b with
    | .error e => .error (.addressOutOfRange, e)
    | .ok m' => .ok m'

/-- `MemRead` of `n` bytes from `a` upward, all or none: the error is the lowest offending address (20_memory.md R59;
43_memory_block.md R151; 44_display.md R161). -/
def loadBytes (m : Memory) (a : Nat) : Nat → Except Nat (List Byte)
  | 0 => .ok []
  | n + 1 =>
    match memRead m a with
    | .error e => .error e
    | .ok b =>
      match loadBytes m (a + 1) n with
      | .error e => .error e
      | .ok bs => .ok (b :: bs)

/-- `CpuStore` of bytes from `a` upward, all or none: the error is that of the lowest offending address (20_memory.md
R59, R60; 43_memory_block.md R150, R152). -/
def storeBytes (m : Memory) (a : Nat) : List Byte → Except (Cause × Nat) Memory
  | [] => .ok m
  | b :: bs =>
    match cpuStore m a b with
    | .error e => .error e
    | .ok m' => storeBytes m' (a + 1) bs

/-- `Mem[a] <- bytes[0]`, `Mem[a+1] <- bytes[1]`, and so on, the raw copy of LoadProgram (70_reset_and_hazards.md R245),
with no check. -/
def memSetBytes (m : Memory) (a : Nat) : List Byte → Memory
  | [] => m
  | b :: bs => memSetBytes (memSet m a b) (a + 1) bs

/-! ## Registers (10_state.md R20, R21) -/

/-- `V[r]`. -/
def getV (s : State) (r : Reg) : Byte := s.v[r]

/-- `V[r] <- b`. -/
def setV (s : State) (r : Reg) (b : Byte) : State := { s with v := s.v.set r b }

/-- VF, `V[15]` (10_state.md R39). -/
def regVF : Reg := 15

/-- `V[0] <- bytes[0]`, `V[1] <- bytes[1]`, and so on for the bytes there are (43_memory_block.md R151). -/
def setVs (s : State) (bytes : List Byte) : State :=
  { s with v := Vector.ofFn fun r : Reg => bytes.getD r.val s.v[r] }

/-! ## Program counter (00_scope.md R15; 10_state.md R26) -/

/-- `npc`, the address of the next sequential instruction. It wraps at 2^16, which no run reaches (10_state.md R28;
log 11). -/
def npc (s : State) : Word := s.pc + 2#16

/-- `PC <- npc`. -/
def advance (s : State) : State := { s with pc := npc s }

/-- `PC <- target`. -/
def jumpTo (s : State) (target : Word) : State := { s with pc := target }

/-- `if taken then PC <- npc + 2 else PC <- npc`. -/
def skipIf (s : State) (taken : Bool) : State := { s with pc := if taken then npc s + 2#16 else npc s }

/-! ## Call stack (10_state.md R29, R30) -/

/-- `Push(v)`; none is StackOverflow. -/
def push (s : State) (ret : Word) : Option State :=
  if h : s.sp.val < 16 then
    some { s with stack := s.stack.set s.sp.val ret, sp := ⟨s.sp.val + 1, Nat.succ_lt_succ h⟩ }
  else none

/-- `Pop()`: the popped value and the state after; none is StackUnderflow. The slot keeps its content. -/
def pop (s : State) : Option (Word × State) :=
  match s.sp with
  | ⟨0, _⟩ => none
  | ⟨k + 1, h⟩ => some (s.stack[k]'(Nat.lt_of_succ_lt_succ h), { s with sp := ⟨k, Nat.lt_of_succ_lt h⟩ })

/-! ## Framebuffer (10_state.md R35) -/

/-- `FB[y][x]`. -/
def pixelAt (fb : Framebuffer) (x : Fin 64) (y : Fin 32) : Bool := fb[y][x]

/-- `FB[y][x] <- FB[y][x] ^ 1`. -/
def flipPixel (fb : Framebuffer) (x : Fin 64) (y : Fin 32) : Framebuffer :=
  fb.set y (fb[y].set x (!fb[y][x]))

/-- All pixels off. -/
def blankScreen : Framebuffer := Vector.replicate 32 (Vector.replicate 64 false)

/-! ## Faults (60_exceptions.md) -/

/-- Fault entry (60_exceptions.md R204): nothing changes but the status and the fault record. There is no return from it
but Reset (R206; `resetOp` in Machine/HostOps.lean). -/
def enterFault (s : State) (c : Cause) (insn : Word) (faddr : Nat) : State :=
  { s with status := .faulted, record := { cause := some c, fpc := s.pc, finsn := insn, faddr := faddr } }

/-- `raise Cause(pc0, insn, addr)` of the instruction rules (00_scope.md R14). The instruction word is that of the
instruction being executed (log 12). -/
def raise (s : State) (c : Cause) (i : Instr) (faddr : Nat) : Host.Outcome State Fault Refusal :=
  .next (enterFault s c (encode i) faddr)

/-- `Fetch(pc0)` (60_exceptions.md R201). -/
def fetch (s : State) : Except Nat Word := memReadWord s.mem s.pc.toNat

end Sys2Proof.Machine
end

