-- ==== Sys2Proof/Machine/Operands.lean ====
section
/-! DEFINITION. The operand forms (30_encoding.md R85, R86): immediates widened, the low nibble of a register, the
operand of a shift, the registers of a block, decimal digits, glyph addresses, and 8-bit arithmetic narrowed. -/

namespace Sys2Proof.Machine

/-- `zext_16(nnn)` (30_encoding.md R85). -/
def addressOf (nnn : BitVec 12) : Word := nnn.setWidth 16

/-- `V[x][3:0]` as an index 0 to 15 (42_address_register.md R142; 45_input.md R170). -/
def lowNibble (b : Byte) : Fin 16 := ⟨b.toNat % 16, Nat.mod_lt _ (Nat.zero_lt_succ 15)⟩

/-- The source of SHR and SHL: V[y] when SHIFT_SOURCE = VY, else V[x] (41_arith_logic.md R129, R131). -/
def shiftOperand (s : State) (x y : Reg) : Byte :=
  match s.params.shiftSource with
  | .vx => getV s x
  | .vy => getV s y

/-- The values of V0 to Vx, in order (43_memory_block.md R150). -/
def valuesUpTo (s : State) (x : Reg) : List Byte := s.v.toList.take (x.val + 1)

/-- The hundreds, tens and ones digit of a byte (43_memory_block.md R152). -/
def decimalDigits (b : Byte) : List Byte :=
  [BitVec.ofNat 8 (b.toNat / 100), BitVec.ofNat 8 (b.toNat / 10 % 10), BitVec.ofNat 8 (b.toNat % 10)]

/-- The address of the glyph of a digit, 0x050 + 5 * d (42_address_register.md R142). -/
def glyphAddress (d : Fin 16) : Word := BitVec.ofNat 16 (0x050 + 5 * d.val)

/-- `(a + b) mod 256` (41_arith_logic.md R122, R127). -/
def addByte (a b : Byte) : Byte := BitVec.ofNat 8 (a.toNat + b.toNat)

/-- `(a - b + 256) mod 256` (41_arith_logic.md R128, R130). -/
def subByte (a b : Byte) : Byte := BitVec.ofNat 8 (a.toNat + 256 - b.toNat)

end Sys2Proof.Machine
end

