-- ==== Sys2Proof/Machine/AddressRegister.lean ====
section
/-! DEFINITION. The address-register instructions (42_address_register.md). None accesses memory, none can fault. -/

namespace Sys2Proof.Machine

/-- LD I, nnn (42_address_register.md R140). -/
def execLdI (nnn : BitVec 12) (s : State) : Host.Outcome State Fault Refusal :=
  .next (advance { s with i := addressOf nnn })

/-- ADD I, Vx: modulo 2^16, no flag (42_address_register.md R141). -/
def execAddIVx (x : Reg) (s : State) : Host.Outcome State Fault Refusal :=
  .next (advance { s with i := s.i + (getV s x).setWidth 16 })

/-- LD F, Vx (42_address_register.md R142). -/
def execLdFVx (x : Reg) (s : State) : Host.Outcome State Fault Refusal :=
  .next (advance { s with i := glyphAddress (lowNibble (getV s x)) })

end Sys2Proof.Machine
end

