-- ==== Sys2Proof/Machine/Flags.lean ====
section
/-! DEFINITION. The one flag, VF (10_state.md R39): what each flag-writing instruction writes there, and in which order
result and flag are written (41_arith_logic.md R120). The collision flag is computed by the compositor
(Machine/Display.lean). -/

namespace Sys2Proof.Machine

/-- A flag is written as 0x01 or 0x00 (10_state.md R39). -/
def flagByte (f : Bool) : Byte := if f then 0x01#8 else 0x00#8

/-- The carry of 8XY4: the unsigned sum exceeds 255 (41_arith_logic.md R127). -/
def carryOut (a b : Byte) : Bool := a.toNat + b.toNat > 255

/-- The not-borrow of 8XY5 and 8XY7: minuend at least subtrahend (41_arith_logic.md R128, R130). -/
def noBorrow (a b : Byte) : Bool := a.toNat ≥ b.toNat

/-- The bit that SHR shifts out, bit 0 (41_arith_logic.md R129). -/
def bitOutRight (src : Byte) : Bool := src.getLsbD 0

/-- The bit that SHL shifts out, bit 7 (41_arith_logic.md R131). -/
def bitOutLeft (src : Byte) : Bool := src.getLsbD 7

/-- `V[15] <- flag`. -/
def setFlag (s : State) (f : Bool) : State := setV s regVF (flagByte f)

/-- `V[x] <- result`, then `V[15] <- flag` (41_arith_logic.md R120). -/
def setResultAndFlag (s : State) (x : Reg) (result : Byte) (f : Bool) : State := setFlag (setV s x result) f

end Sys2Proof.Machine
end

