-- ==== Sys2Proof/Machine/ArithLogic.lean ====
section
/-! DEFINITION. The register arithmetic and logic instructions (41_arith_logic.md). Each ends with `PC <- npc` and none
can fault. -/

namespace Sys2Proof.Machine

/-- LD Vx, nn (41_arith_logic.md R121). -/
def execLdImm (x : Reg) (nn : Byte) (s : State) : Host.Outcome State Fault Refusal :=
  .next (advance (setV s x nn))

/-- ADD Vx, nn: no flag (41_arith_logic.md R122). -/
def execAddImm (x : Reg) (nn : Byte) (s : State) : Host.Outcome State Fault Refusal :=
  .next (advance (setV s x (addByte (getV s x) nn)))

/-- LD Vx, Vy (41_arith_logic.md R123). -/
def execLdReg (x y : Reg) (s : State) : Host.Outcome State Fault Refusal :=
  .next (advance (setV s x (getV s y)))

/-- OR Vx, Vy (41_arith_logic.md R124). -/
def execOrReg (x y : Reg) (s : State) : Host.Outcome State Fault Refusal :=
  .next (advance (setV s x (getV s x ||| getV s y)))

/-- AND Vx, Vy (41_arith_logic.md R125). -/
def execAndReg (x y : Reg) (s : State) : Host.Outcome State Fault Refusal :=
  .next (advance (setV s x (getV s x &&& getV s y)))

/-- XOR Vx, Vy (41_arith_logic.md R126). -/
def execXorReg (x y : Reg) (s : State) : Host.Outcome State Fault Refusal :=
  .next (advance (setV s x (getV s x ^^^ getV s y)))

/-- ADD Vx, Vy: VF is the carry (41_arith_logic.md R127). -/
def execAddReg (x y : Reg) (s : State) : Host.Outcome State Fault Refusal :=
  let a := getV s x
  let b := getV s y
  .next (advance (setResultAndFlag s x (addByte a b) (carryOut a b)))

/-- SUB Vx, Vy: V[x] - V[y], VF is the not-borrow (41_arith_logic.md R128). -/
def execSubReg (x y : Reg) (s : State) : Host.Outcome State Fault Refusal :=
  let a := getV s x
  let b := getV s y
  .next (advance (setResultAndFlag s x (subByte a b) (noBorrow a b)))

/-- SHR Vx, Vy: VF is the bit shifted out (41_arith_logic.md R129). -/
def execShr (x y : Reg) (s : State) : Host.Outcome State Fault Refusal :=
  let src := shiftOperand s x y
  .next (advance (setResultAndFlag s x (src >>> 1) (bitOutRight src)))

/-- SUBN Vx, Vy: V[y] - V[x], VF is the not-borrow (41_arith_logic.md R130). -/
def execSubn (x y : Reg) (s : State) : Host.Outcome State Fault Refusal :=
  let a := getV s y
  let b := getV s x
  .next (advance (setResultAndFlag s x (subByte a b) (noBorrow a b)))

/-- SHL Vx, Vy: VF is the bit shifted out (41_arith_logic.md R131). -/
def execShl (x y : Reg) (s : State) : Host.Outcome State Fault Refusal :=
  let src := shiftOperand s x y
  .next (advance (setResultAndFlag s x (src <<< 1) (bitOutLeft src)))

/-- RND Vx, nn: the next random byte, a free value, AND-masked (41_arith_logic.md R132; log 3). -/
def execRnd (x : Reg) (nn : Byte) (s : State) : Host.Outcome State Fault Refusal :=
  let s' := { s with draws := s.draws + 1 }
  .next (advance (setV s' x (Config.rand s.draws &&& nn)))

end Sys2Proof.Machine
end

