-- ==== Sys2Proof/Machine/ControlFlow.lean ====
section
/-! DEFINITION. The control-flow instructions (40_control_flow.md). -/

namespace Sys2Proof.Machine

/-- SYS nnn: always UnknownInstruction (40_control_flow.md R100). -/
def execSys (nnn : BitVec 12) (s : State) : Host.Outcome State Fault Refusal :=
  raise s .unknownInstruction (.sys nnn) 0

/-- RET (40_control_flow.md R101). -/
def execRet (s : State) : Host.Outcome State Fault Refusal :=
  match pop s with
  | none => raise s .stackUnderflow .ret 0
  | some (target, s') => .next (jumpTo s' target)

/-- JP nnn (40_control_flow.md R102). -/
def execJp (nnn : BitVec 12) (s : State) : Host.Outcome State Fault Refusal :=
  .next (jumpTo s (addressOf nnn))

/-- CALL nnn (40_control_flow.md R103). -/
def execCall (nnn : BitVec 12) (s : State) : Host.Outcome State Fault Refusal :=
  match push s (npc s) with
  | none => raise s .stackOverflow (.call nnn) 0
  | some s' => .next (jumpTo s' (addressOf nnn))

/-- SE Vx, nn (40_control_flow.md R104). -/
def execSeImm (x : Reg) (nn : Byte) (s : State) : Host.Outcome State Fault Refusal :=
  .next (skipIf s (getV s x == nn))

/-- SNE Vx, nn (40_control_flow.md R105). -/
def execSneImm (x : Reg) (nn : Byte) (s : State) : Host.Outcome State Fault Refusal :=
  .next (skipIf s (getV s x != nn))

/-- SE Vx, Vy (40_control_flow.md R106). -/
def execSeReg (x y : Reg) (s : State) : Host.Outcome State Fault Refusal :=
  .next (skipIf s (getV s x == getV s y))

/-- SNE Vx, Vy (40_control_flow.md R107). -/
def execSneReg (x y : Reg) (s : State) : Host.Outcome State Fault Refusal :=
  .next (skipIf s (getV s x != getV s y))

/-- JP V0, nnn (40_control_flow.md R108). -/
def execJpV0 (nnn : BitVec 12) (s : State) : Host.Outcome State Fault Refusal :=
  .next (jumpTo s (addressOf nnn + (getV s 0).setWidth 16))

end Sys2Proof.Machine
end

