-- ==== Sys2Proof/Machine/Display.lean ====
section
/-! DEFINITION. The compositor and the display instructions (44_display.md). -/

namespace Sys2Proof.Machine

/-- The framebuffer while a sprite is drawn, and whether an on-pixel has been turned off. -/
structure Canvas where
  /-- The framebuffer so far. -/
  fb : Framebuffer
  /-- The collision so far. -/
  collision : Bool
  deriving DecidableEq, Repr

/-- `v mod 64`, a column (44_display.md R164). -/
def column (v : Nat) : Fin 64 := ⟨v % 64, Nat.mod_lt _ (Nat.zero_lt_succ 63)⟩

/-- `v mod 32`, a row (44_display.md R164). -/
def row (v : Nat) : Fin 32 := ⟨v % 32, Nat.mod_lt _ (Nat.zero_lt_succ 31)⟩

/-- A 1 bit of a sprite lands on a pixel (44_display.md R161, R165). -/
def plot (c : Canvas) (x : Fin 64) (y : Fin 32) : Canvas :=
  { fb := flipPixel c.fb x y, collision := c.collision || pixelAt c.fb x y }

/-- Bit `k` of a row byte, `b[7 - k]`: bit 0 is the leftmost pixel (44_display.md R163). -/
def spriteBit (b : Byte) (k : Nat) : Bool := b.getLsbD (7 - k)

/-- Bit `k` of the row byte `b`, of a sprite whose left edge is at column `cx`, on row `cy`. -/
def drawBit (b : Byte) (cx cy : Nat) (c : Canvas) (k : Nat) : Canvas :=
  if spriteBit b k then plot c (column (cx + k)) (row cy) else c

/-- The eight bits of a row byte, left to right. -/
def drawRow (b : Byte) (cx cy : Nat) (c : Canvas) : Canvas :=
  (List.range 8).foldl (drawBit b cx cy) c

/-- The rows of a sprite, top to bottom, from row `cy` on (`draw_sprite` of 60_exceptions.md R215). -/
def drawSprite : List Byte → Nat → Nat → Canvas → Canvas
  | [], _, _, c => c
  | b :: bs, cx, cy, c => drawSprite bs cx (cy + 1) (drawRow b cx cy c)

/-- CLS (44_display.md R160). -/
def execCls (s : State) : Host.Outcome State Fault Refusal :=
  .next (advance { s with fb := blankScreen })

/-- DRW Vx, Vy, n (44_display.md R161). -/
def execDrw (x y : Reg) (n : BitVec 4) (s : State) : Host.Outcome State Fault Refusal :=
  match loadBytes s.mem s.i.toNat n.toNat with
  | .error a => raise s .addressOutOfRange (.drw x y n) a
  | .ok rows =>
    let c := drawSprite rows (getV s x).toNat (getV s y).toNat { fb := s.fb, collision := false }
    .next (advance (setFlag { s with fb := c.fb } c.collision))

end Sys2Proof.Machine
end

