-- ==== Sys2Proof/Machine/Input.lean ====
section
/-! DEFINITION. The input instructions and the key poll (45_input.md). -/

namespace Sys2Proof.Machine

/-- `Key[k] == 1`, `is_key_pressed` (60_exceptions.md R215). -/
def keyPressed (s : State) (k : Key) : Bool := s.key[k]

/-- SKP Vx (45_input.md R170). -/
def execSkp (x : Reg) (s : State) : Host.Outcome State Fault Refusal :=
  .next (skipIf s (keyPressed s (lowNibble (getV s x))))

/-- SKNP Vx (45_input.md R171). -/
def execSknp (x : Reg) (s : State) : Host.Outcome State Fault Refusal :=
  .next (skipIf s (!keyPressed s (lowNibble (getV s x))))

/-- LD Vx, K: enter the wait; the poll writes V[x] later (45_input.md R172). -/
def execLdVxK (x : Reg) (s : State) : Host.Outcome State Fault Refusal :=
  .next (advance { s with status := .awaitKey x })

/-- The least pressed key, if any (45_input.md R173). -/
def leastPressed (s : State) : Option Key := (List.finRange 16).find? (keyPressed s)

/-- The poll step: what a Cycle does in status AWAIT_KEY(x) (45_input.md R173). -/
def pollKey (x : Reg) (s : State) : State :=
  match leastPressed s with
  | none => s
  | some k => { setV s x (BitVec.ofNat 8 k.val) with status := .running }

end Sys2Proof.Machine
end

