-- ==== Sys2Proof/Machine/MemoryBlock.lean ====
section
/-! DEFINITION. The memory block instructions (43_memory_block.md). I is left unchanged by all three; a fault leaves
everything unchanged. -/

namespace Sys2Proof.Machine

/-- Store bytes at I upward, all or none, and go on; or raise (43_memory_block.md R150, R152). -/
def storeAtI (i : Instr) (bytes : List Byte) (s : State) : Host.Outcome State Fault Refusal :=
  match storeBytes s.mem s.i.toNat bytes with
  | .error (c, a) => raise s c i a
  | .ok m => .next (advance { s with mem := m })

/-- LD [I], Vx (43_memory_block.md R150). -/
def execStoreRegs (x : Reg) (s : State) : Host.Outcome State Fault Refusal :=
  storeAtI (.storeRegs x) (valuesUpTo s x) s

/-- LD Vx, [I] (43_memory_block.md R151). -/
def execLoadRegs (x : Reg) (s : State) : Host.Outcome State Fault Refusal :=
  match loadBytes s.mem s.i.toNat (x.val + 1) with
  | .error a => raise s .addressOutOfRange (.loadRegs x) a
  | .ok bytes => .next (advance (setVs s bytes))

/-- LD B, Vx (43_memory_block.md R152). -/
def execLdBVx (x : Reg) (s : State) : Host.Outcome State Fault Refusal :=
  storeAtI (.ldBVx x) (decimalDigits (getV s x)) s

end Sys2Proof.Machine
end

