-- ==== Sys2Proof/Machine/Timers.lean ====
section
/-! DEFINITION. The timer instructions (46_timers.md). The decrement is no instruction: it is `tickTimers` in
Machine/HostOps.lean. -/

namespace Sys2Proof.Machine

/-- LD Vx, DT (46_timers.md R180). -/
def execLdVxDT (x : Reg) (s : State) : Host.Outcome State Fault Refusal :=
  .next (advance (setV s x s.dt))

/-- LD DT, Vx (46_timers.md R181). -/
def execLdDTVx (x : Reg) (s : State) : Host.Outcome State Fault Refusal :=
  .next (advance { s with dt := getV s x })

/-- LD ST, Vx (46_timers.md R182). -/
def execLdSTVx (x : Reg) (s : State) : Host.Outcome State Fault Refusal :=
  .next (advance { s with st := getV s x })

end Sys2Proof.Machine
end

