-- ==== Sys2Proof/Machine/Cycle.lean ====
section
/-! DEFINITION. The Cycle operation, the CPU's one step (60_exceptions.md R200 to R202). -/

namespace Sys2Proof.Machine

/-- A Cycle in status RUNNING: fetch, decode, execute, in that order of faults (60_exceptions.md R200, R207). -/
def runInstruction (s : State) : Host.Outcome State Fault Refusal :=
  match fetch s with
  | .error a => .next (enterFault s .addressOutOfRange 0x0000#16 a)
  | .ok w =>
    match decodeWord w with
    | .error _ => .next (enterFault s .unknownInstruction w 0)
    | .ok i => exec i s

/-- Cycle (60_exceptions.md R200). -/
def cycle (s : State) : Host.Outcome State Fault Refusal :=
  match s.status with
  | .faulted => .next s
  | .awaitKey x => .next (pollKey x s)
  | .running => runInstruction s

end Sys2Proof.Machine
end

