-- ==== Sys2Proof/Machine/HostOps.lean ====
section
/-! DEFINITION. The host interface (60_exceptions.md R220 to R229; 70_reset_and_hazards.md): the operations through which
the host changes the core, and the observations it makes. -/

namespace Sys2Proof.Machine

/-- TickTimers (60_exceptions.md R213). -/
def tickTimers (s : State) : State :=
  { s with
    dt := if s.dt ≠ 0#8 then s.dt - 1#8 else s.dt
    st := if s.st ≠ 0#8 then s.st - 1#8 else s.st }

/-- SetKey (60_exceptions.md R225). -/
def setKey (k : Key) (pressed : Bool) (s : State) : State := { s with key := s.key.set k pressed }

/-- Reset (70_reset_and_hazards.md R240, R241): all state of the core at its reset value, and no LoadProgram invoked since
(log 19). What is not state of the core goes on: the parameters, the count of random draws, and the host with its further
operations (log 13). -/
def resetOp (s : State) : State :=
  { State.reset with
    params := s.params
    draws := s.draws
    sched := s.sched
    host := s.host
    turns := s.turns }

/-- LoadProgram (70_reset_and_hazards.md R245, R246): the bytes at 0x200 upward, or ProgramTooLarge and no change. -/
def loadProgram (bytes : List Byte) (s : State) : Except Cause State :=
  if bytes.length > 3584 then .error .programTooLarge
  else .ok { s with mem := memSetBytes s.mem 0x200 bytes }

/-- The states in which LoadProgram is defined (70_reset_and_hazards.md R247): those that Reset leaves when nothing but
TickTimers, SetKey and observations has followed it. Everything but the latch is then at its reset value; a LoadProgram
changes `loaded`, and a Cycle that no load precedes faults. DEDUCED (log 6). -/
def bootReady (s : State) : Bool := { s with key := State.reset.key } = resetOp s

/-- The LoadProgram that may follow a Reset has been invoked (60_exceptions.md R229; log 19). -/
def markLoaded (s : State) : State := { s with loaded := true }

/-- A LoadProgram served where it is defined; ProgramTooLarge leaves the state of the core alone (70_reset_and_hazards.md
R246). Either way it is the one invocation that R229 of 60_exceptions.md allows after a Reset (log 19). Elsewhere the spec
defines no move, and the machine stops (70_reset_and_hazards.md R247; log 6). -/
def serveLoad (bytes : List Byte) (s : State) : Host.Outcome State Fault Refusal :=
  if bootReady s then
    match loadProgram bytes s with
    | .ok s' => .next (markLoaded s')
    | .error _ => .next (markLoaded s)
  else .fault .loadOutsideBoot

/-- One operation of the host (60_exceptions.md R220). -/
def serve (op : Config.HostOp) (s : State) : Host.Outcome State Fault Refusal :=
  match op with
  | .reset => .next (resetOp s)
  | .loadProgram bytes => serveLoad bytes s
  | .cycle => cycle s
  | .tickTimers => .next (tickTimers s)
  | .setKey k pressed => .next (setKey k pressed s)
  | .observe => .next s

/-- The host's next operation: the oldest of `sched`; when there is none, the free host's choice, or a Cycle where the
host invokes nothing else (00_scope.md R17; 60_exceptions.md R229; log 5). -/
def nextOp (s : State) : Config.HostOp :=
  match s.sched with
  | op :: _ => op
  | [] =>
    match s.host with
    | .free => Config.hostChoice s.turns
    | .cycleOnly => .cycle

/-- The state from which the host's next operation is served: the operation is taken off `sched`, or the free host's turn
is counted (log 5). -/
def takeOp (s : State) : State :=
  match s.sched with
  | _ :: rest => { s with sched := rest }
  | [] =>
    match s.host with
    | .free => { s with turns := s.turns + 1 }
    | .cycleOnly => s

/-- The host's next operation, served (60_exceptions.md R220). -/
def serveNext (s : State) : Host.Outcome State Fault Refusal := serve (nextOp s) (takeOp s)

/-! ## Observations, which change nothing (60_exceptions.md R226 to R228) -/

/-- GetPixel (60_exceptions.md R226). -/
def getPixel (s : State) (x : Fin 64) (y : Fin 32) : Bool := pixelAt s.fb x y

/-- GetStatus (60_exceptions.md R227): the status and, when FAULTED, the fault record. It is also what a Cycle reports
to the host (R200): none is success. -/
def getStatus (s : State) : Status × Option FaultRecord :=
  (s.status, if s.status = .faulted then some s.record else none)

/-- ReadMem (60_exceptions.md R228). -/
def readMem (s : State) (a : Fin 4096) : Byte := memGet s.mem a.val

/-- The live stack entries, `Stack[0]` to `Stack[SP-1]` (10_state.md R29; 60_exceptions.md R228). -/
def liveStack (s : State) : List Word := s.stack.toList.take s.sp.val

/-- SP as the 8-bit register it is (10_state.md R29; 60_exceptions.md R228). -/
def readSP (s : State) : Byte := BitVec.ofNat 8 s.sp.val

/-- `sound_active` (60_exceptions.md R217). -/
def soundActive (s : State) : Bool := s.st != 0#8

/-- The code of a cause (60_exceptions.md R203). -/
def causeCode (c : Cause) : Nat :=
  match c with
  | .addressOutOfRange => 1
  | .stackOverflow => 2
  | .stackUnderflow => 3
  | .unknownInstruction => 4
  | .programTooLarge => 5
  | .writeProtected => 6

/-! ## An instruction placed where the next step fetches it -/

/-- Where `placeWord` places a word: at PC, or at 0x200 when no word can be fetched at PC (60_exceptions.md R201). -/
def placeAddress (s : State) : Word := if s.pc.toNat ≤ 0xFFE then s.pc else 0x200#16

/-- The state whose next step runs the word `w`: the word in memory where the step fetches, the status RUNNING, no host
operation waiting and a host that invokes Cycle (log 14). -/
def placeWord (s : State) (w : Word) : State :=
  let p := placeAddress s
  { s with
    mem := memSetBytes s.mem p.toNat [highByte w, lowByte w]
    pc := p
    status := .running
    sched := []
    host := .cycleOnly }

end Sys2Proof.Machine
end

