-- ==== Sys2Proof/Machine/Step.lean ====
section
/-! DEFINITION. One step of the machine, and the state that has a given instruction as its next. -/

namespace Sys2Proof.Machine

/-- One step: the host's next operation (00_scope.md R17), be it a Cycle (60_exceptions.md R200) or another. -/
def step (s : State) : Host.Outcome State Fault Refusal := serveNext s

/-- `s` with the instruction whose bits are `w` placed where `step` fetches its next (log 14). -/
def State.withFetchWord (s : State) (nbits w : Nat) : State := placeWord s (tableWord nbits w)

end Sys2Proof.Machine
end

