-- ==== Sys2Proof/Safety.lean ====
section
/-! DEFINITION. The terms that claims are stated in: frames, the words that are no instruction, the sprite as a set of
pixels, and the invariant that every step keeps. -/

namespace Sys2Proof.Safety

open Sys2Proof.Machine

/-! ## Frames -/

/-- Every general register but those of `dst` holds what it held. -/
def OnlyRegs (dst : List Reg) (s t : State) : Prop := ∀ r : Reg, r ∉ dst → getV t r = getV s r

/-- Every byte of memory reads as it did. -/
def SameMemory (s t : State) : Prop := ∀ a : Nat, memRead t.mem a = memRead s.mem a

/-- Every byte of memory outside the `n` bytes from `base` upward reads as it did. -/
def SameMemoryOutside (base n : Nat) (s t : State) : Prop :=
  ∀ a : Nat, a < base ∨ base + n ≤ a → memRead t.mem a = memRead s.mem a

/-- An instruction whose result goes to registers of `dst` and which moves PC to `target`: every other register, flag,
special register, timer, stack slot, pixel, key and byte of memory is unchanged. -/
def RegistersOnly (dst : List Reg) (target : Word) (s t : State) : Prop :=
  t.pc = target ∧ OnlyRegs dst s t ∧ SameMemory s t ∧ t = { s with v := t.v, pc := t.pc }

/-- An instruction that does nothing but move PC to `target`. -/
def PcOnly (target : Word) (s t : State) : Prop :=
  t.pc = target ∧ SameMemory s t ∧ t = { s with pc := t.pc }

/-! ## Registers an instruction names (10_state.md R22) -/

/-- The registers an instruction may write, VF as a flag included (10_state.md R22). The key wait writes its register
later, at the poll. -/
def writtenRegs : Instr → List Reg
  | .ldImm x _ | .addImm x _ | .ldReg x _ | .orReg x _ | .andReg x _ | .xorReg x _ | .rnd x _ | .ldVxDT x => [x]
  | .addReg x _ | .subReg x _ | .shr x _ | .subn x _ | .shl x _ => [x, 15]
  | .drw _ _ _ => [15]
  | .loadRegs x => (List.finRange 16).filter fun r => r ≤ x
  | .cls | .ret | .sys _ | .jp _ | .call _ | .seImm _ _ | .sneImm _ _ | .seReg _ _ | .sneReg _ _ | .ldI _ | .jpV0 _
  | .skp _ | .sknp _ | .ldVxK _ | .ldDTVx _ | .ldSTVx _ | .addIVx _ | .ldFVx _ | .ldBVx _ | .storeRegs _ => []

/-- The registers an instruction reads, which for the two shifts depends on SHIFT_SOURCE (10_state.md R22). -/
def readRegs (source : Config.ShiftSource) : Instr → List Reg
  | .seImm x _ | .sneImm x _ | .addImm x _ | .skp x | .sknp x | .ldDTVx x | .ldSTVx x | .addIVx x | .ldFVx x
  | .ldBVx x => [x]
  | .seReg x y | .sneReg x y | .orReg x y | .andReg x y | .xorReg x y | .addReg x y | .subReg x y | .subn x y
  | .drw x y _ => [x, y]
  | .ldReg _ y => [y]
  | .shr x y | .shl x y => if source = .vy then [y] else [x]
  | .jpV0 _ => [0]
  | .storeRegs x => (List.finRange 16).filter fun r => r ≤ x
  | .cls | .ret | .sys _ | .jp _ | .call _ | .ldImm _ _ | .ldI _ | .rnd _ _ | .ldVxDT _ | .ldVxK _ | .loadRegs _ => []

/-! ## Encodings -/

/-- The words that 30_encoding.md R90 lists as assigned to no instruction. -/
abbrev Unassigned (w : Word) : Prop :=
  (w.toNat / 0x1000 = 0x5 ∧ w.toNat % 0x10 ≠ 0) ∨
  (w.toNat / 0x1000 = 0x8 ∧ ((8 ≤ w.toNat % 0x10 ∧ w.toNat % 0x10 ≤ 0xD) ∨ w.toNat % 0x10 = 0xF)) ∨
  (w.toNat / 0x1000 = 0x9 ∧ w.toNat % 0x10 ≠ 0) ∨
  (w.toNat / 0x1000 = 0xE ∧ w.toNat % 0x100 ≠ 0x9E ∧ w.toNat % 0x100 ≠ 0xA1) ∨
  (w.toNat / 0x1000 = 0xF ∧ w.toNat % 0x100 ∉ [0x07, 0x0A, 0x15, 0x18, 0x1E, 0x29, 0x33, 0x55, 0x65])

/-- The words 0x0000 to 0x0FFF other than 0x00E0 and 0x00EE (30_encoding.md R91). -/
abbrev SysWord (w : Word) : Prop := w.toNat ≤ 0x0FFF ∧ w ≠ 0x00E0#16 ∧ w ≠ 0x00EE#16

/-- The word of format X with register `x` and fixed bits `fixed` (30_encoding.md R81). -/
def wordX (fixed : Nat) (x : Reg) : Word := BitVec.ofNat 16 (fixed + 0x100 * x.val)

/-! ## Sprites -/

/-- A 1 bit of the sprite of `n` rows at `base`, drawn with its left edge at `cx` and its top edge at `cy`, lands on
column `px` of row `py` (44_display.md R161, R163, R164). -/
def SpriteHits (m : Memory) (base n cx cy : Nat) (px : Fin 64) (py : Fin 32) : Prop :=
  ∃ r < n, ∃ k < 8, (memGet m (base + r)).getLsbD (7 - k) = true ∧
    px.val = (cx + k) % 64 ∧ py.val = (cy + r) % 32

/-- None of the `n` addresses from `base` upward exceeds 0xFFF; there is none when `n` is 0 (20_memory.md R58, R59). -/
abbrev InRange (base n : Nat) : Prop := n = 0 ∨ base + n ≤ 0x1000

/-! ## The invariant -/

/-- Memory is in its canonical form, and no program has written below 0x200 (20_memory.md R51, R60). -/
abbrev MemoryOk (s : State) : Prop := Memory.wf s.mem ∧ ∀ c ∈ s.mem, 0x200 ≤ c.1

/-- PC is at most 0x10FE (10_state.md R28). -/
abbrev PcOk (s : State) : Prop := s.pc.toNat ≤ 0x10FE

/-- Every live return address lies between 0x0002 and 0x1000 (40_control_flow.md R101). -/
abbrev StackOk (s : State) : Prop :=
  ∀ k : Fin 16, k.val < s.sp.val → 0x0002 ≤ s.stack[k].toNat ∧ s.stack[k].toNat ≤ 0x1000

/-- A fault is recorded exactly when the status is FAULTED; it is a cycle fault, and PC stands at the faulting
instruction (10_state.md R41; 60_exceptions.md R203, R204). -/
abbrev FaultOk (s : State) : Prop :=
  (s.status = .faulted ↔ s.record.cause ≠ none) ∧ s.record.cause ≠ some .programTooLarge ∧
    (s.status = .faulted → s.record.fpc = s.pc)

/-- What holds at reset and after every step. -/
abbrev Inv (s : State) : Prop := MemoryOk s ∧ PcOk s ∧ StackOk s ∧ FaultOk s

/-! ## Premises about the host -/

/-- The fairness that 70_reset_and_hazards.md R261 asks of a free host: if it invokes Cycle without end, it invokes
TickTimers without end. A premise for claims about unending runs, never a property of the core; no statement of this
package takes it (log 5). -/
def FairTicks : Prop :=
  (∀ n : Nat, ∃ m ≥ n, Config.hostChoice m = .cycle) → ∀ n : Nat, ∃ m ≥ n, Config.hostChoice m = .tickTimers

end Sys2Proof.Safety
end

