-- ==== Sys2Proof/Certificates/Slice0/Obligations.lean ====
section
/-! DEFINITION. The statements for the provers, each a `Prop` named `Obligations.<Name>`; OBLIGATIONS.json says what each
claims and which rules of spec/ it rests on. -/

open Sys2Proof Sys2Proof.Machine Sys2Proof.Safety

/-! ## Encoding (30_encoding.md) -/

/-- Decoding the word of a well-formed instruction gives the instruction back, whatever its operands (R81, R83, R84). -/
def Obligations.EncodeThenDecodeGivesInstructionBack : Prop :=
  ∀ i : Instr, i.wellFormed = true → decodeWord (encode i) = .ok i

/-- Every word that decodes is the word of the instruction it decodes to, which is well formed (R83, R84). -/
def Obligations.DecodeThenEncodeGivesWordBack : Prop :=
  ∀ (w : Word) (i : Instr), decodeWord w = .ok i → encode i = w ∧ i.wellFormed = true

/-- The decoder refuses exactly the words that R90 lists, and names the word it refuses. -/
def Obligations.DecoderRefusesExactlyUnassignedWords : Prop :=
  ∀ w : Word, (Unassigned w → decodeWord w = .error (.unknownInstruction w)) ∧
    (¬ Unassigned w → ∃ i : Instr, decodeWord w = .ok i)

/-- The four words that the source prints (R82), and one word of every other family and one unassigned word, written out
from R83 and R90. -/
def Obligations.WordsWrittenFromTheEncodingTableDecode : Prop :=
  (decodeWord 0x00E0#16 = .ok .cls ∧ decodeWord 0x6005#16 = .ok (.ldImm 0 0x05#8) ∧
    decodeWord 0x7003#16 = .ok (.addImm 0 0x03#8) ∧ decodeWord 0xA050#16 = .ok (.ldI 0x050#12)) ∧
  decodeWord 0x2345#16 = .ok (.call 0x345#12) ∧ decodeWord 0x8126#16 = .ok (.shr 1 2) ∧
  decodeWord 0xF21E#16 = .ok (.addIVx 2) ∧ decodeWord 0xF455#16 = .ok (.storeRegs 4) ∧
  decodeWord 0xDABC#16 = .ok (.drw 10 11 0xC#4) ∧ decodeWord 0xE29E#16 = .ok (.skp 2) ∧
  decodeWord 0xF115#16 = .ok (.ldDTVx 1) ∧ decodeWord 0x5121#16 = .error (.unknownInstruction 0x5121#16)

/-! ## The cycle and the step (60_exceptions.md) -/

/-- A step runs the decoded instruction: where the status is RUNNING and the bytes at PC decode to `i`, a step whose next
host operation is Cycle is `exec i`; the only thing a step does around it is to take the operation, off `sched`, or as the
Cycle that a host which invokes nothing else goes on with (the model's way to hold the host's order, log 5). -/
def Obligations.StepRunsTheDecodedInstruction : Prop :=
  ∀ (s : State) (w : Word) (i : Instr), s.status = .running → memReadWord s.mem s.pc.toNat = .ok w →
    decodeWord w = .ok i →
    (nextOp s = .cycle → step s = exec i (takeOp s)) ∧
    (s.sched = [] → s.host = .cycleOnly → step s = exec i s) ∧
    (∀ rest : List Config.HostOp, s.sched = .cycle :: rest → step s = exec i { s with sched := rest })

/-- A Cycle does one of three things according to the status (R200, R202). -/
def Obligations.CycleFollowsTheStatus : Prop :=
  ∀ s : State,
    (s.status = .faulted → cycle s = .next s) ∧
    (∀ x : Reg, s.status = .awaitKey x → cycle s = .next (pollKey x s)) ∧
    (s.status = .running →
      (∀ a : Nat, fetch s = .error a → cycle s = .next (enterFault s .addressOutOfRange 0x0000#16 a)) ∧
      (∀ (w : Word) (i : Instr), fetch s = .ok w → decodeWord w = .ok i → cycle s = exec i s) ∧
      (∀ (w : Word) (e : Reject), fetch s = .ok w → decodeWord w = .error e →
        cycle s = .next (enterFault s .unknownInstruction w 0)))

/-- The fetch reads two bytes, the first high, at any alignment and from any region; above 0xFFE it raises
AddressOutOfRange (R201). -/
def Obligations.FetchReadsTwoBytesOrFaults : Prop :=
  ∀ s : State,
    (s.pc.toNat ≤ 0xFFE → ∃ (w : Word) (hi lo : Byte), fetch s = .ok w ∧
      memRead s.mem s.pc.toNat = .ok hi ∧ memRead s.mem (s.pc.toNat + 1) = .ok lo ∧
      w.toNat = hi.toNat * 256 + lo.toNat) ∧
    (s.status = .running → s.pc.toNat = 0xFFF →
      cycle s = .next (enterFault s .addressOutOfRange 0x0000#16 0x1000)) ∧
    (s.status = .running → s.pc.toNat > 0xFFF →
      cycle s = .next (enterFault s .addressOutOfRange 0x0000#16 s.pc.toNat))

/-- A word that R90 or R91 names raises UnknownInstruction, which records the word and PC and changes nothing else. -/
def Obligations.UnassignedAndSysWordsRaiseUnknownInstruction : Prop :=
  ∀ (s : State) (w : Word), s.status = .running → fetch s = .ok w → Unassigned w ∨ SysWord w →
    cycle s = .next { s with
      status := .faulted
      record := { cause := some .unknownInstruction, fpc := s.pc, finsn := w, faddr := 0 } }

/-- A Cycle in status RUNNING that ends FAULTED has changed nothing but the status and the fault record, which holds a
cycle-fault cause, the address of the instruction and its word, 0x0000 for a fault of the fetch (R204). -/
def Obligations.FaultingCycleKeepsNothingElse : Prop :=
  ∀ s t : State, s.status = .running → cycle s = .next t → t.status = .faulted →
    t = { s with status := .faulted, record := t.record } ∧ t.record.fpc = s.pc ∧
    t.record.cause ≠ none ∧ t.record.cause ≠ some .programTooLarge ∧
    (∀ w : Word, fetch s = .ok w → t.record.finsn = w) ∧
    (∀ a : Nat, fetch s = .error a → t.record.finsn = 0x0000#16)

/-- An instruction enters FAULTED only where its rule raises; all others never fault, and TickTimers never does
(R207, R208). -/
def Obligations.InstructionsFaultOnlyWhereTheirRuleRaises : Prop :=
  (∀ (i : Instr) (s t : State), s.status ≠ .faulted → exec i s = .next t → t.status = .faulted →
    (∃ nnn : BitVec 12, i = .sys nnn ∧ t.record.cause = some .unknownInstruction) ∨
    (i = .ret ∧ s.sp = 0 ∧ t.record.cause = some .stackUnderflow) ∨
    (∃ nnn : BitVec 12, i = .call nnn ∧ s.sp = 16 ∧ t.record.cause = some .stackOverflow) ∨
    (∃ (x y : Reg) (n : BitVec 4), i = .drw x y n ∧ ¬ InRange s.i.toNat n.toNat ∧
      t.record.cause = some .addressOutOfRange) ∨
    (∃ x : Reg, i = .loadRegs x ∧ ¬ InRange s.i.toNat (x.val + 1) ∧
      t.record.cause = some .addressOutOfRange) ∨
    (∃ x : Reg, i = .storeRegs x ∧
      ((¬ InRange s.i.toNat (x.val + 1) ∧ t.record.cause = some .addressOutOfRange) ∨
       (s.i.toNat < 0x200 ∧ t.record.cause = some .writeProtected))) ∨
    (∃ x : Reg, i = .ldBVx x ∧
      ((¬ InRange s.i.toNat 3 ∧ t.record.cause = some .addressOutOfRange) ∨
       (s.i.toNat < 0x200 ∧ t.record.cause = some .writeProtected)))) ∧
  ∀ s : State, (tickTimers s).status = s.status

/-- FAULTED is left by Reset only: every other operation that a step serves keeps the status and the fault record, and a
Cycle changes nothing at all but that the operation is taken (R200, R206). Which operation is next, and that a host which
invokes nothing else goes on with Cycle when nothing waits, is the model's choice (log 5). -/
def Obligations.FaultedIsLeftByResetOnly : Prop :=
  ∀ s t : State, s.status = .faulted → step s = .next t → nextOp s ≠ .reset →
    t.status = .faulted ∧ t.record = s.record ∧ (nextOp s = .cycle → t = takeOp s) ∧
    (s.sched = [] → s.host = .cycleOnly → t = s)

/-- A step serves the host's next operation (60_exceptions.md R220): the oldest scheduled one, else the free host's choice,
which may be any sequence (00_scope.md R17; 60_exceptions.md R229), else a Cycle (log 5). An observation changes nothing
(R226 to R228). Reset keeps what is no state of the core (log 13). A LoadProgram is served in the states that Reset leaves,
whatever ticks and key changes follow it, and no longer after a first Cycle (70_reset_and_hazards.md R247, R248);
elsewhere it is the model's stop (log 6). One that is too large leaves the core as it was. Once one is served, whether it was
too large or not, none is until the next Reset (60_exceptions.md R229; log 19). -/
def Obligations.StepServesTheHostOperation : Prop :=
  ∀ s : State,
    step s = serve (nextOp s) (takeOp s) ∧
    (∀ (op : Config.HostOp) (rest : List Config.HostOp), s.sched = op :: rest →
      nextOp s = op ∧ takeOp s = { s with sched := rest }) ∧
    (s.sched = [] → s.host = .free →
      nextOp s = Config.hostChoice s.turns ∧ takeOp s = { s with turns := s.turns + 1 }) ∧
    (s.sched = [] → s.host = .cycleOnly → nextOp s = .cycle ∧ takeOp s = s) ∧
    serve .reset s = .next (resetOp s) ∧ serve .cycle s = cycle s ∧ serve .tickTimers s = .next (tickTimers s) ∧
    (∀ (k : Key) (p : Bool), serve (.setKey k p) s = .next (setKey k p s)) ∧ serve .observe s = .next s ∧
    (∀ bytes : List Byte,
      (bootReady s = false → serve (.loadProgram bytes) s = .fault .loadOutsideBoot) ∧
      (bootReady s = true →
        (∀ t : State, loadProgram bytes s = .ok t → serve (.loadProgram bytes) s = .next (markLoaded t)) ∧
        (∀ c : Cause, loadProgram bytes s = .error c → serve (.loadProgram bytes) s = .next (markLoaded s))) ∧
      ∀ t : State, serve (.loadProgram bytes) s = .next t → bootReady t = false) ∧
    markLoaded s = { s with loaded := true } ∧
    (s.loaded = true → bootReady s = false ∧
      ∀ (op : Config.HostOp) (t : State), op ≠ .reset → serve op s = .next t → t.loaded = true) ∧
    bootReady (resetOp s) = true ∧
    (bootReady s = true → bootReady (tickTimers s) = true ∧ (∀ (k : Key) (p : Bool), bootReady (setKey k p s) = true) ∧
      ∀ t : State, cycle s = .next t → bootReady t = false) ∧
    ((resetOp s).params = s.params ∧ (resetOp s).draws = s.draws ∧ (resetOp s).sched = s.sched ∧
      (resetOp s).host = s.host ∧ (resetOp s).turns = s.turns)

/-- An instruction's word placed by `withFetchWord` is what the very next step runs, whatever the state (log 14). -/
def Obligations.PlacedWordRunsNext : Prop :=
  ∀ (s : State) (nbits w : Nat) (i : Instr), decodeTableWord nbits w = some i →
    step (s.withFetchWord nbits w) = exec i (s.withFetchWord nbits w)

/-! ## Control flow (40_control_flow.md) -/

/-- SYS always raises UnknownInstruction with the word 0NNN, and changes nothing else (R100). -/
def Obligations.SysRaisesUnknownInstruction : Prop :=
  ∀ (nnn : BitVec 12) (s : State), exec (.sys nnn) s = .next { s with
    status := .faulted
    record := { cause := some .unknownInstruction, fpc := s.pc, finsn := nnn.setWidth 16, faddr := 0 } }

/-- RET pops PC, or raises StackUnderflow on an empty stack (R101). -/
def Obligations.ReturnPopsPcOrUnderflows : Prop :=
  ∀ s : State,
    (s.sp.val = 0 → exec .ret s = .next { s with
      status := .faulted
      record := { cause := some .stackUnderflow, fpc := s.pc, finsn := 0x00EE#16, faddr := 0 } }) ∧
    (0 < s.sp.val → ∃ t : State, exec .ret s = .next t ∧ t.sp.val + 1 = s.sp.val ∧
      s.stack[t.sp.val]? = some t.pc ∧ SameMemory s t ∧ t = { s with sp := t.sp, pc := t.pc })

/-- JP moves PC to the 12-bit address (R102). -/
def Obligations.JumpMovesPc : Prop :=
  ∀ (nnn : BitVec 12) (s : State), ∃ t : State, exec (.jp nnn) s = .next t ∧
    t.pc.toNat = nnn.toNat ∧ PcOnly t.pc s t

/-- CALL pushes the address of the next instruction and jumps, or raises StackOverflow when sixteen return addresses are
on the stack (R103). -/
def Obligations.CallPushesReturnAddressOrOverflows : Prop :=
  ∀ (nnn : BitVec 12) (s : State),
    (s.sp.val = 16 → exec (.call nnn) s = .next { s with
      status := .faulted
      record := { cause := some .stackOverflow, fpc := s.pc, finsn := BitVec.ofNat 16 (0x2000 + nnn.toNat),
                  faddr := 0 } }) ∧
    (s.sp.val < 16 → ∃ t : State, exec (.call nnn) s = .next t ∧ t.sp.val = s.sp.val + 1 ∧
      t.stack[s.sp.val]? = some (s.pc + 2#16) ∧
      (∀ k : Nat, k ≠ s.sp.val → t.stack[k]? = s.stack[k]?) ∧
      t.pc.toNat = nnn.toNat ∧ SameMemory s t ∧ t = { s with sp := t.sp, stack := t.stack, pc := t.pc })

/-- The skips on an immediate pass over one instruction when the register equals (SE), or differs from (SNE), the byte
(R104, R105). -/
def Obligations.SkipsCompareRegisterWithImmediate : Prop :=
  ∀ (x : Reg) (nn : Byte) (s : State),
    (∃ t : State, exec (.seImm x nn) s = .next t ∧
      PcOnly (if getV s x = nn then s.pc + 4#16 else s.pc + 2#16) s t) ∧
    (∃ t : State, exec (.sneImm x nn) s = .next t ∧
      PcOnly (if getV s x ≠ nn then s.pc + 4#16 else s.pc + 2#16) s t)

/-- The skips on a register pass over one instruction when the two registers are equal (SE), or differ (SNE)
(R106, R107). -/
def Obligations.SkipsCompareTwoRegisters : Prop :=
  ∀ (x y : Reg) (s : State),
    (∃ t : State, exec (.seReg x y) s = .next t ∧
      PcOnly (if getV s x = getV s y then s.pc + 4#16 else s.pc + 2#16) s t) ∧
    (∃ t : State, exec (.sneReg x y) s = .next t ∧
      PcOnly (if getV s x ≠ getV s y then s.pc + 4#16 else s.pc + 2#16) s t)

/-- JP V0 moves PC to the sum of the address and V0, which is never reduced (R108, which the spec marks as its
general knowledge, G5, log 10). -/
def Obligations.JumpPlusV0AddsWithoutWrap : Prop :=
  ∀ (nnn : BitVec 12) (s : State), ∃ t : State, exec (.jpV0 nnn) s = .next t ∧
    t.pc.toNat = nnn.toNat + (getV s 0).toNat ∧ PcOnly t.pc s t

/-! ## Arithmetic and logic (41_arith_logic.md) -/

/-- LD writes the immediate, or the other register, to V[x] (R121, R123). -/
def Obligations.LoadsWriteRegister : Prop :=
  ∀ (x y : Reg) (nn : Byte) (s : State),
    (∃ t : State, exec (.ldImm x nn) s = .next t ∧ getV t x = nn ∧
      RegistersOnly [x] (s.pc + 2#16) s t) ∧
    (∃ t : State, exec (.ldReg x y) s = .next t ∧ getV t x = getV s y ∧
      RegistersOnly [x] (s.pc + 2#16) s t)

/-- ADD immediate wraps modulo 256 and writes no flag (R122). -/
def Obligations.AddImmediateWrapsWithoutFlag : Prop :=
  ∀ (x : Reg) (nn : Byte) (s : State), ∃ t : State, exec (.addImm x nn) s = .next t ∧
    (getV t x).toNat = ((getV s x).toNat + nn.toNat) % 256 ∧ RegistersOnly [x] (s.pc + 2#16) s t

/-- OR, AND and XOR combine bit by bit and write no flag (R124, R125, R126). -/
def Obligations.BitwiseOperationsWriteNoFlag : Prop :=
  ∀ (x y : Reg) (s : State),
    (∃ t : State, exec (.orReg x y) s = .next t ∧
      (∀ k : Nat, (getV t x).getLsbD k = ((getV s x).getLsbD k || (getV s y).getLsbD k)) ∧
      RegistersOnly [x] (s.pc + 2#16) s t) ∧
    (∃ t : State, exec (.andReg x y) s = .next t ∧
      (∀ k : Nat, (getV t x).getLsbD k = ((getV s x).getLsbD k && (getV s y).getLsbD k)) ∧
      RegistersOnly [x] (s.pc + 2#16) s t) ∧
    (∃ t : State, exec (.xorReg x y) s = .next t ∧
      (∀ k : Nat, (getV t x).getLsbD k = ((getV s x).getLsbD k ^^ (getV s y).getLsbD k)) ∧
      RegistersOnly [x] (s.pc + 2#16) s t)

/-- ADD of two registers: the sum modulo 256, and VF set iff it exceeds 255; the flag is what remains in VF (R127,
R120). -/
def Obligations.AddRegistersReportsCarry : Prop :=
  ∀ (x y : Reg) (s : State), ∃ t : State, exec (.addReg x y) s = .next t ∧
    (x ≠ 15 → (getV t x).toNat = ((getV s x).toNat + (getV s y).toNat) % 256) ∧
    getV t 15 = (if (getV s x).toNat + (getV s y).toNat > 255 then 0x01#8 else 0x00#8) ∧
    RegistersOnly [x, 15] (s.pc + 2#16) s t

/-- SUB subtracts Vy from Vx and SUBN Vx from Vy, modulo 256; VF is set iff the minuend is at least the subtrahend; the
flag is what remains in VF (R128, R130, R120). -/
def Obligations.SubtractsReportNoBorrow : Prop :=
  ∀ (x y : Reg) (s : State),
    (∃ t : State, exec (.subReg x y) s = .next t ∧
      (x ≠ 15 → ((getV t x).toNat : Int) = ((getV s x).toNat - (getV s y).toNat : Int) % 256) ∧
      getV t 15 = (if (getV s x).toNat ≥ (getV s y).toNat then 0x01#8 else 0x00#8) ∧
      RegistersOnly [x, 15] (s.pc + 2#16) s t) ∧
    (∃ t : State, exec (.subn x y) s = .next t ∧
      (x ≠ 15 → ((getV t x).toNat : Int) = ((getV s y).toNat - (getV s x).toNat : Int) % 256) ∧
      getV t 15 = (if (getV s y).toNat ≥ (getV s x).toNat then 0x01#8 else 0x00#8) ∧
      RegistersOnly [x, 15] (s.pc + 2#16) s t)

/-- SHR and SHL shift the source that SHIFT_SOURCE names by one bit into V[x]; VF is the bit shifted out and is what
remains in VF (R129, R131, R120). It holds for both values of the parameter. -/
def Obligations.ShiftsReportTheBitShiftedOut : Prop :=
  ∀ (x y : Reg) (s : State) (src : Byte),
    src = (if s.params.shiftSource = .vy then getV s y else getV s x) →
    (∃ t : State, exec (.shr x y) s = .next t ∧
      (x ≠ 15 → (getV t x).toNat = src.toNat / 2) ∧
      (getV t 15).toNat = src.toNat % 2 ∧ RegistersOnly [x, 15] (s.pc + 2#16) s t) ∧
    (∃ t : State, exec (.shl x y) s = .next t ∧
      (x ≠ 15 → (getV t x).toNat = src.toNat * 2 % 256) ∧
      (getV t 15).toNat = src.toNat / 128 ∧ RegistersOnly [x, 15] (s.pc + 2#16) s t)

/-- RND writes the next random byte, a free value, AND the immediate (R132). That the byte is an opaque constant
applied to a count of draws is the model's choice (log 3); the statement holds for every value of it. -/
def Obligations.RandomByteIsMasked : Prop :=
  ∀ (x : Reg) (nn : Byte) (s : State), ∃ t : State, exec (.rnd x nn) s = .next t ∧
    getV t x = (Config.rand s.draws &&& nn) ∧ t.pc = s.pc + 2#16 ∧ OnlyRegs [x] s t ∧ SameMemory s t ∧
    t.draws = s.draws + 1 ∧ t = { s with v := t.v, pc := t.pc, draws := t.draws }

/-! ## Address register (42_address_register.md) -/

/-- LD I and ADD I write I and nothing but I and PC: the address, the sum modulo 2^16 (R140, R141). -/
def Obligations.AddressLoadAndAddWriteI : Prop :=
  ∀ (nnn : BitVec 12) (x : Reg) (s : State),
    (∃ t : State, exec (.ldI nnn) s = .next t ∧ t.i.toNat = nnn.toNat ∧ t.pc = s.pc + 2#16 ∧
      SameMemory s t ∧ t = { s with i := t.i, pc := t.pc }) ∧
    (∃ t : State, exec (.addIVx x) s = .next t ∧ t.i.toNat = (s.i.toNat + (getV s x).toNat) % 65536 ∧
      t.pc = s.pc + 2#16 ∧ SameMemory s t ∧ t = { s with i := t.i, pc := t.pc })

/-- LD F writes the address of the glyph of the low nibble to I, and nothing but I and PC (R142, which the spec marks as
derived from R53). -/
def Obligations.GlyphAddressIsBasePlusFiveTimesDigit : Prop :=
  ∀ (x : Reg) (s : State), ∃ t : State, exec (.ldFVx x) s = .next t ∧
    t.i.toNat = 0x050 + 5 * ((getV s x).toNat % 16) ∧ t.pc = s.pc + 2#16 ∧ SameMemory s t ∧
    t = { s with i := t.i, pc := t.pc }

/-! ## Memory block (43_memory_block.md) -/

/-- FX55 stores V0 to Vx at I upward, all or none (R150). -/
def Obligations.StoreRegistersWritesBlockOrFaults : Prop :=
  ∀ (x : Reg) (s : State),
    (s.i.toNat + x.val > 0xFFF → exec (.storeRegs x) s =
      .next (enterFault s .addressOutOfRange (wordX 0xF055 x) (max s.i.toNat 0x1000))) ∧
    (s.i.toNat < 0x200 → exec (.storeRegs x) s =
      .next (enterFault s .writeProtected (wordX 0xF055 x) s.i.toNat)) ∧
    (0x200 ≤ s.i.toNat → s.i.toNat + x.val ≤ 0xFFF → ∃ t : State, exec (.storeRegs x) s = .next t ∧
      (∀ k : Reg, k ≤ x → memRead t.mem (s.i.toNat + k.val) = .ok (getV s k)) ∧
      SameMemoryOutside s.i.toNat (x.val + 1) s t ∧ t.pc = s.pc + 2#16 ∧ t = { s with mem := t.mem, pc := t.pc })

/-- FX65 loads V0 to Vx from I upward, all or none (R151). -/
def Obligations.LoadRegistersReadsBlockOrFaults : Prop :=
  ∀ (x : Reg) (s : State),
    (s.i.toNat + x.val > 0xFFF → exec (.loadRegs x) s =
      .next (enterFault s .addressOutOfRange (wordX 0xF065 x) (max s.i.toNat 0x1000))) ∧
    (s.i.toNat + x.val ≤ 0xFFF → ∃ t : State, exec (.loadRegs x) s = .next t ∧
      (∀ k : Reg, k ≤ x → memRead s.mem (s.i.toNat + k.val) = .ok (getV t k)) ∧
      (∀ k : Reg, x < k → getV t k = getV s k) ∧
      SameMemory s t ∧ t.pc = s.pc + 2#16 ∧ t = { s with v := t.v, pc := t.pc })

/-- FX33 stores the hundreds, tens and ones digit of V[x] at I, I+1, I+2, all or none (R152; the spec marks the
order of the digits as its general knowledge, G4, log 10). -/
def Obligations.DecimalStoreWritesDigitsOrFaults : Prop :=
  ∀ (x : Reg) (s : State),
    (s.i.toNat + 2 > 0xFFF → exec (.ldBVx x) s =
      .next (enterFault s .addressOutOfRange (wordX 0xF033 x) (max s.i.toNat 0x1000))) ∧
    (s.i.toNat < 0x200 → exec (.ldBVx x) s =
      .next (enterFault s .writeProtected (wordX 0xF033 x) s.i.toNat)) ∧
    (0x200 ≤ s.i.toNat → s.i.toNat + 2 ≤ 0xFFF → ∃ (t : State) (h z o : Byte), exec (.ldBVx x) s = .next t ∧
      memRead t.mem s.i.toNat = .ok h ∧ memRead t.mem (s.i.toNat + 1) = .ok z ∧
      memRead t.mem (s.i.toNat + 2) = .ok o ∧
      h.toNat = (getV s x).toNat / 100 ∧ z.toNat = (getV s x).toNat / 10 % 10 ∧
      o.toNat = (getV s x).toNat % 10 ∧
      SameMemoryOutside s.i.toNat 3 s t ∧ t.pc = s.pc + 2#16 ∧ t = { s with mem := t.mem, pc := t.pc })

/-! ## Display (44_display.md) -/

/-- CLS turns every pixel off and changes nothing else but PC (R160). -/
def Obligations.ClearTurnsEveryPixelOff : Prop :=
  ∀ s : State, ∃ t : State, exec .cls s = .next t ∧ (∀ (px : Fin 64) (py : Fin 32), pixelAt t.fb px py = false) ∧
    t.pc = s.pc + 2#16 ∧ SameMemory s t ∧ t = { s with fb := t.fb, pc := t.pc }

/-- DRW inverts exactly the pixels that a 1 bit of the sprite lands on, wrapping on both axes, and sets VF to 0x01 iff
one of them was on, else to 0x00; it changes nothing else but PC (R161, R163, R164, R165). The spec
marks the bit order as its general knowledge (R163, G3, log 10) and the closed form as derived from R161 (R165). -/
def Obligations.DrawXorsSpriteAndReportsCollision : Prop :=
  ∀ (x y : Reg) (n : BitVec 4) (s : State), InRange s.i.toNat n.toNat →
    ∃ t : State, exec (.drw x y n) s = .next t ∧
      (∀ (px : Fin 64) (py : Fin 32),
        (SpriteHits s.mem s.i.toNat n.toNat (getV s x).toNat (getV s y).toNat px py →
          pixelAt t.fb px py = !pixelAt s.fb px py) ∧
        (¬ SpriteHits s.mem s.i.toNat n.toNat (getV s x).toNat (getV s y).toNat px py →
          pixelAt t.fb px py = pixelAt s.fb px py)) ∧
      ((∃ (px : Fin 64) (py : Fin 32), pixelAt s.fb px py = true ∧
          SpriteHits s.mem s.i.toNat n.toNat (getV s x).toNat (getV s y).toNat px py) → getV t 15 = 0x01#8) ∧
      ((¬ ∃ (px : Fin 64) (py : Fin 32), pixelAt s.fb px py = true ∧
          SpriteHits s.mem s.i.toNat n.toNat (getV s x).toNat (getV s y).toNat px py) → getV t 15 = 0x00#8) ∧
      t.pc = s.pc + 2#16 ∧ OnlyRegs [15] s t ∧ SameMemory s t ∧ t = { s with v := t.v, fb := t.fb, pc := t.pc }

/-- DRW with a row address above 0xFFF raises AddressOutOfRange before any pixel or VF changes (R161). -/
def Obligations.DrawOutOfRangeFaults : Prop :=
  ∀ (x y : Reg) (n : BitVec 4) (s : State), 0 < n.toNat → s.i.toNat + n.toNat - 1 > 0xFFF →
    exec (.drw x y n) s = .next (enterFault s .addressOutOfRange
      (BitVec.ofNat 16 (0xD000 + 0x100 * x.val + 0x10 * y.val + n.toNat)) (max s.i.toNat 0x1000))

/-- DRW of no rows draws nothing, sets VF to 0x00 and cannot fault whatever I holds (R166). -/
def Obligations.DrawOfNoRowsOnlyClearsVF : Prop :=
  ∀ (x y : Reg) (s : State), ∃ t : State, exec (.drw x y 0#4) s = .next t ∧ getV t 15 = 0x00#8 ∧
    RegistersOnly [15] (s.pc + 2#16) s t

/-- DRW is its own inverse: the same sprite drawn twice at the same coordinates, with no framebuffer write between,
restores the framebuffer, and the second sets VF to 0x01 if the first turned a pixel on (R167, which
the spec marks as derived from R161 and R165). -/
def Obligations.DrawingTwiceRestoresTheFramebuffer : Prop :=
  ∀ (x y x' y' : Reg) (n : BitVec 4) (s t u w : State),
    InRange s.i.toNat n.toNat → InRange u.i.toNat n.toNat →
    exec (.drw x y n) s = .next t → u.fb = t.fb →
    (getV u x').toNat % 64 = (getV s x).toNat % 64 → (getV u y').toNat % 32 = (getV s y).toNat % 32 →
    (∀ r < n.toNat, memRead u.mem (u.i.toNat + r) = memRead s.mem (s.i.toNat + r)) →
    exec (.drw x' y' n) u = .next w →
    w.fb = s.fb ∧
    ((∃ (px : Fin 64) (py : Fin 32), pixelAt s.fb px py = false ∧ pixelAt t.fb px py = true) →
      getV w 15 = 0x01#8)

/-! ## Input (45_input.md) -/

/-- SKP skips when the key of the low nibble of V[x] is pressed, SKNP when it is not (R170, R171). -/
def Obligations.KeySkipsTestTheLatch : Prop :=
  ∀ (x : Reg) (k : Key) (s : State), k.val = (getV s x).toNat % 16 →
    (∃ t : State, exec (.skp x) s = .next t ∧
      PcOnly (if s.key[k] = true then s.pc + 4#16 else s.pc + 2#16) s t) ∧
    (∃ t : State, exec (.sknp x) s = .next t ∧
      PcOnly (if s.key[k] = false then s.pc + 4#16 else s.pc + 2#16) s t)

/-- LD Vx, K enters AWAIT_KEY(x) and moves PC past itself; it looks at no key and writes no register (R172). -/
def Obligations.WaitForKeyEntersAwaitKey : Prop :=
  ∀ (x : Reg) (s : State), exec (.ldVxK x) s = .next { s with status := .awaitKey x, pc := s.pc + 2#16 }

/-- The poll writes the least pressed key to V[x] and resumes; with no key pressed it changes nothing (R173). -/
def Obligations.PollTakesTheLeastPressedKey : Prop :=
  ∀ (x : Reg) (s : State), s.status = .awaitKey x →
    (∀ k : Key, s.key[k] = true → (∀ j : Key, s.key[j] = true → k ≤ j) →
      ∃ t : State, cycle s = .next t ∧ (getV t x).toNat = k.val ∧ t.status = .running ∧
        OnlyRegs [x] s t ∧ SameMemory s t ∧ t = { s with v := t.v, status := t.status }) ∧
    ((∀ k : Key, s.key[k] = false) → cycle s = .next s)

/-! ## Timers (46_timers.md; 60_exceptions.md) -/

/-- The timer instructions copy DT to V[x], V[x] to DT and V[x] to ST (R180, R181, R182). -/
def Obligations.TimerInstructionsCopy : Prop :=
  ∀ (x : Reg) (s : State),
    (∃ t : State, exec (.ldVxDT x) s = .next t ∧ getV t x = s.dt ∧ RegistersOnly [x] (s.pc + 2#16) s t) ∧
    (∃ t : State, exec (.ldDTVx x) s = .next t ∧ t.dt = getV s x ∧ t.pc = s.pc + 2#16 ∧ SameMemory s t ∧
      t = { s with dt := t.dt, pc := t.pc }) ∧
    (∃ t : State, exec (.ldSTVx x) s = .next t ∧ t.st = getV s x ∧ t.pc = s.pc + 2#16 ∧ SameMemory s t ∧
      t = { s with st := t.st, pc := t.pc })

/-- TickTimers decrements each timer that is not zero, never below zero, and writes nothing else, in every status
(R213). -/
def Obligations.TickDecrementsEachTimerToZero : Prop :=
  ∀ s : State, (tickTimers s).dt.toNat = s.dt.toNat - 1 ∧ (tickTimers s).st.toNat = s.st.toNat - 1 ∧
    tickTimers s = { s with dt := (tickTimers s).dt, st := (tickTimers s).st }

/-! ## Host operations (60_exceptions.md; 70_reset_and_hazards.md) -/

/-- SetKey writes one entry of the latch and nothing else, in every status (R225). -/
def Obligations.SetKeyWritesOneLatchEntry : Prop :=
  ∀ (k : Key) (p : Bool) (s : State), (setKey k p s).key[k] = p ∧
    (∀ j : Key, j ≠ k → (setKey k p s).key[j] = s.key[j]) ∧ setKey k p s = { s with key := (setKey k p s).key }

/-- LoadProgram copies at most 3584 bytes to 0x200 upward and changes nothing else; more are ProgramTooLarge
(R245, R246). -/
def Obligations.LoadProgramCopiesOrIsTooLarge : Prop :=
  ∀ (bytes : List Byte) (s : State),
    (bytes.length > 3584 → loadProgram bytes s = .error .programTooLarge) ∧
    (bytes.length ≤ 3584 → ∃ t : State, loadProgram bytes s = .ok t ∧
      (∀ (j : Nat) (b : Byte), bytes[j]? = some b → memRead t.mem (0x200 + j) = .ok b) ∧
      SameMemoryOutside 0x200 bytes.length s t ∧ t = { s with mem := t.mem })

/-- Reset leaves the values that R45 and R240 state, from any state (R240, R241). -/
def Obligations.ResetLeavesTheStatedValues : Prop :=
  ∀ s : State, ∃ t : State, t = resetOp s ∧ (∀ r : Reg, getV t r = 0x00#8) ∧ t.i = 0x0000#16 ∧ t.pc = 0x0200#16 ∧
    t.sp.val = 0 ∧ t.dt = 0x00#8 ∧ t.st = 0x00#8 ∧
    (∀ a ≤ 0xFFF, ¬ (0x050 ≤ a ∧ a ≤ 0x09F) → memRead t.mem a = .ok 0x00#8) ∧
    (∀ j < 80, ∃ b : Byte, fontset[j]? = some b ∧ memRead t.mem (0x050 + j) = .ok b) ∧
    (∀ (px : Fin 64) (py : Fin 32), pixelAt t.fb px py = false) ∧ (∀ k : Key, t.key[k] = false) ∧
    t.status = .running ∧ t.record.cause = none

/-- The machine starts in a state that Reset leaves, which is the model's choice (log 16), with the default parameter
(00_scope.md R8; carried in the state by log 4), a free host (60_exceptions.md R229; log 5) and no LoadProgram invoked
(log 19). -/
def Obligations.MachineStartsAtReset : Prop :=
  core.reset = State.reset ∧ resetOp State.reset = State.reset ∧ State.reset.params.shiftSource = .vx ∧
  State.reset.sched = [] ∧ State.reset.host = .free ∧ State.reset.loaded = false

/-- The fontset at reset, byte by byte (20_memory.md R53, which the spec marks as its general knowledge, G2, log 10). -/
def Obligations.FontsetStandsAtReset : Prop :=
  (List.range 80).map (fun j => memGet State.reset.mem (0x050 + j)) =
    [0xF0#8, 0x90#8, 0x90#8, 0x90#8, 0xF0#8, 0x20#8, 0x60#8, 0x20#8, 0x20#8, 0x70#8] ++
    [0xF0#8, 0x10#8, 0xF0#8, 0x80#8, 0xF0#8, 0xF0#8, 0x10#8, 0xF0#8, 0x10#8, 0xF0#8] ++
    [0x90#8, 0x90#8, 0xF0#8, 0x10#8, 0x10#8, 0xF0#8, 0x80#8, 0xF0#8, 0x10#8, 0xF0#8] ++
    [0xF0#8, 0x80#8, 0xF0#8, 0x90#8, 0xF0#8, 0xF0#8, 0x10#8, 0x20#8, 0x40#8, 0x40#8] ++
    [0xF0#8, 0x90#8, 0xF0#8, 0x90#8, 0xF0#8, 0xF0#8, 0x90#8, 0xF0#8, 0x10#8, 0xF0#8] ++
    [0xF0#8, 0x90#8, 0xF0#8, 0x90#8, 0x90#8, 0xE0#8, 0x90#8, 0xE0#8, 0x90#8, 0xE0#8] ++
    [0xF0#8, 0x80#8, 0x80#8, 0x80#8, 0xF0#8, 0xE0#8, 0x90#8, 0x90#8, 0x90#8, 0xE0#8] ++
    [0xF0#8, 0x80#8, 0xF0#8, 0x80#8, 0xF0#8, 0xF0#8, 0x80#8, 0xF0#8, 0x80#8, 0x80#8]

/-! ## Memory (20_memory.md) -/

/-- A byte written is the byte read, at every address, and no other byte changes; above 0xFFF reads and writes fault
(R54, R55, R57). -/
def Obligations.WrittenByteIsReadBack : Prop :=
  ∀ (m : Memory) (a : Nat) (b : Byte),
    (a ≤ 0xFFF → ∃ m' : Memory, memWrite m a b = .ok m' ∧ memRead m' a = .ok b ∧
      ∀ c : Nat, c ≠ a → memRead m' c = memRead m c) ∧
    (a > 0xFFF → memWrite m a b = .error a ∧ memRead m a = .error a)

/-- A word is two bytes, the one at the lower address high; it faults above 0xFFE with the lowest offending address
(R56). -/
def Obligations.WordReadIsBigEndian : Prop :=
  ∀ (m : Memory) (a : Nat),
    (a ≤ 0xFFE → ∃ (w : Word) (hi lo : Byte), memReadWord m a = .ok w ∧ memRead m a = .ok hi ∧
      memRead m (a + 1) = .ok lo ∧ w.toNat = hi.toNat * 256 + lo.toNat) ∧
    (a = 0xFFF → memReadWord m a = .error 0x1000) ∧ (a > 0xFFF → memReadWord m a = .error a)

/-- The store path of the CPU refuses addresses above 0xFFF and below 0x200 and is the raw write elsewhere (R60). -/
def Obligations.CpuStoreRefusesProtectedAddresses : Prop :=
  ∀ (m : Memory) (a : Nat) (b : Byte),
    (a > 0xFFF → cpuStore m a b = .error (.addressOutOfRange, a)) ∧
    (a < 0x200 → cpuStore m a b = .error (.writeProtected, a)) ∧
    (0x200 ≤ a → a ≤ 0xFFF → ∃ m' : Memory, cpuStore m a b = .ok m' ∧ memWrite m a b = .ok m')

/-- Every write keeps the canonical form, so equal memories are equal data. The form is the model's choice (log 8). -/
def Obligations.WritesKeepTheCanonicalForm : Prop :=
  (∀ (m m' : Memory) (a : Nat) (b : Byte), Memory.wf m → memWrite m a b = .ok m' → Memory.wf m') ∧
  ∀ m m' : Memory, Memory.wf m → Memory.wf m' → (∀ a : Nat, memRead m a = memRead m' a) → m = m'

/-- A store is seen by the very next fetch: registers stored at the address of the next instruction are what it is
fetched as (R69, which the spec marks as derived from R56 and R65). -/
def Obligations.StoredWordIsFetchedNext : Prop :=
  ∀ (x : Reg) (s t : State), 1 ≤ x.val → 0x200 ≤ s.i.toNat → s.i.toNat + x.val ≤ 0xFFF → s.i = s.pc + 2#16 →
    exec (.storeRegs x) s = .next t → fetch t = .ok (wordOfBytes (getV s 0) (getV s 1))

/-! ## Rules about the whole machine -/

/-- The invariant holds at reset. That the empty memory is in canonical form is about the model's form of memory (log 8),
and the empty fault record is the value the model takes (log 2). -/
def Obligations.InvariantHoldsAtReset : Prop := Inv State.reset

/-- Every step keeps the invariant: memory in the model's canonical form (log 8) and unwritten below 0x200 (20_memory.md
R51, R60); PC at most 0x10FE (10_state.md R28, which the spec marks as derived from R26, R100 to R108 and R201); live return
addresses between 0x0002 and 0x1000 (40_control_flow.md R101); a fault recorded while the status is FAULTED (10_state.md
R41; 60_exceptions.md R204), and, by the model's choice, none recorded otherwise (log 2). -/
def Obligations.EveryStepKeepsTheInvariant : Prop :=
  ∀ s t : State, Inv s → step s = .next t → Inv t

/-- No Cycle changes a byte below 0x200, in any state (20_memory.md R51, R60). -/
def Obligations.NoCycleWritesBelow0x200 : Prop :=
  ∀ s t : State, cycle s = .next t → ∀ a < 0x200, memRead t.mem a = memRead s.mem a

/-- No Cycle writes the key latch (10_state.md R38). Nor does it write the model's own fields for the parameter (log 4) and
for the host (logs 5 and 19). -/
def Obligations.NoCycleWritesTheKeyLatch : Prop :=
  ∀ s t : State, cycle s = .next t → t.key = s.key ∧ t.params = s.params ∧ t.sched = s.sched ∧ t.host = s.host ∧
    t.turns = s.turns ∧ t.loaded = s.loaded

/-- Only CALL and RET change the stack or its pointer (10_state.md R30), only LD DT, LD ST and the three address-register
instructions change DT, ST and I (10_state.md R23, R31, R32), only CLS and DRW the framebuffer (10_state.md R36), and only
FX55 and FX33 memory (20_memory.md R64). -/
def Obligations.EachPieceIsWrittenByItsInstructionsOnly : Prop :=
  ∀ (i : Instr) (s t : State), exec i s = .next t →
    (t.sp ≠ s.sp ∨ t.stack ≠ s.stack → i = .ret ∨ ∃ nnn : BitVec 12, i = .call nnn) ∧
    (t.dt ≠ s.dt → ∃ x : Reg, i = .ldDTVx x) ∧
    (t.st ≠ s.st → ∃ x : Reg, i = .ldSTVx x) ∧
    (t.i ≠ s.i → (∃ nnn : BitVec 12, i = .ldI nnn) ∨ (∃ x : Reg, i = .addIVx x) ∨ ∃ x : Reg, i = .ldFVx x) ∧
    (t.fb ≠ s.fb → i = .cls ∨ ∃ (x y : Reg) (n : BitVec 4), i = .drw x y n) ∧
    (t.mem ≠ s.mem → (∃ x : Reg, i = .storeRegs x) ∨ ∃ x : Reg, i = .ldBVx x)

/-- No instruction writes a general register other than those that 10_state.md R22 lists for it, and the completion of a
key wait writes none but its destination. -/
def Obligations.RegistersAreWrittenAsListed : Prop :=
  (∀ (i : Instr) (s t : State), exec i s = .next t → OnlyRegs (writtenRegs i) s t) ∧
  ∀ (x : Reg) (s t : State), s.status = .awaitKey x → cycle s = .next t → OnlyRegs [x] s t

/-- No instruction reads a general register other than those that 10_state.md R22 lists for it: two runs of it from states
that differ in other registers only agree in every register it writes and in everything that is no register. -/
def Obligations.RegistersAreReadAsListed : Prop :=
  ∀ (i : Instr) (s t s' t' : State), s' = { s with v := s'.v } →
    (∀ r ∈ readRegs s.params.shiftSource i, getV s' r = getV s r) →
    exec i s = .next t → exec i s' = .next t' →
    t' = { t with v := t'.v } ∧ ∀ r ∈ writtenRegs i, t.status ≠ .faulted → getV t' r = getV t r

/-- A jump to itself is a fixed point of Cycle (70_reset_and_hazards.md R263, which the spec marks as derived from R102
and R200). -/
def Obligations.JumpToItselfIsAFixedPoint : Prop :=
  ∀ (s : State) (a : BitVec 12), s.status = .running → s.pc.toNat = a.toNat →
    fetch s = .ok (0x1000#16 ||| a.setWidth 16) → cycle s = .next s
end

