-- ==== Sys2Proof/Laws/Memory.lean ====
section
/-! SUPPORT. What the memory operations do: reads after writes, the canonical form, and the one lemma for each block
operation that says everything it can answer. -/

namespace Sys2Proof.Machine

/-! ## Raw reads and writes -/

theorem memGet_memErase_of_ne (m : Memory) {a c : Nat} (h : c ≠ a) : memGet (memErase m a) c = memGet m c := by
  induction m with
  | nil => rfl
  | cons d m ih =>
    by_cases hd : d.1 = a
    · have : memErase (d :: m) a = memErase m a := by simp [memErase, hd]
      rw [this, ih, memGet, if_neg (by omega)]
    · have : memErase (d :: m) a = d :: memErase m a := by simp [memErase, hd]
      rw [this, memGet, memGet, ih]

theorem memGet_memErase_self (m : Memory) (a : Nat) : memGet (memErase m a) a = resetByte a := by
  induction m with
  | nil => rfl
  | cons d m ih =>
    by_cases hd : d.1 = a
    · have : memErase (d :: m) a = memErase m a := by simp [memErase, hd]
      rw [this, ih]
    · have : memErase (d :: m) a = d :: memErase m a := by simp [memErase, hd]
      rw [this, memGet, if_neg hd, ih]

theorem memGet_memInsert_self (m : Memory) (a : Nat) (b : Byte) (h : ∀ c ∈ m, c.1 ≠ a) :
    memGet (memInsert m a b) a = b := by
  induction m with
  | nil => simp [memInsert, memGet]
  | cons d m ih =>
    simp only [List.mem_cons, forall_eq_or_imp] at h
    unfold memInsert
    split
    · simp [memGet]
    · rw [memGet, if_neg h.1, ih h.2]

theorem memGet_memInsert_of_ne (m : Memory) {a c : Nat} (b : Byte) (h : c ≠ a) :
    memGet (memInsert m a b) c = memGet m c := by
  induction m with
  | nil => simp [memInsert, memGet, Ne.symm h]
  | cons d m ih =>
    unfold memInsert
    split
    · rw [memGet, if_neg (Ne.symm h)]
    · rw [memGet, memGet, ih]

theorem mem_memErase {m : Memory} {a : Nat} {c : Host.Cell} : c ∈ memErase m a ↔ c ∈ m ∧ c.1 ≠ a := by
  simp [memErase]

theorem mem_memInsert {m : Memory} {a : Nat} {b : Byte} {c : Host.Cell} :
    c ∈ memInsert m a b ↔ c = (a, b) ∨ c ∈ m := by
  induction m with
  | nil => simp [memInsert]
  | cons d m ih =>
    unfold memInsert
    split
    · simp
    · simp only [List.mem_cons, ih]
      exact or_left_comm

/-- The entries of a memory after a write are the written one, unless it is what the address reads as unlisted, and those
of other addresses. -/
theorem mem_memSet {m : Memory} {a : Nat} {b : Byte} {c : Host.Cell} :
    c ∈ memSet m a b ↔ (c = (a, b) ∧ b ≠ resetByte a) ∨ (c ∈ m ∧ c.1 ≠ a) := by
  unfold memSet
  split
  · rename_i h
    simp [mem_memErase, h]
  · rename_i h
    simp [mem_memErase, mem_memInsert, h]

@[simp] theorem memGet_memSet_self (m : Memory) (a : Nat) (b : Byte) : memGet (memSet m a b) a = b := by
  unfold memSet
  split
  · rename_i h
    rw [memGet_memErase_self, h]
  · exact memGet_memInsert_self _ _ _ fun c hc => (mem_memErase.mp hc).2

theorem memGet_memSet_of_ne (m : Memory) {a c : Nat} (b : Byte) (h : c ≠ a) :
    memGet (memSet m a b) c = memGet m c := by
  unfold memSet
  split
  · exact memGet_memErase_of_ne m h
  · rw [memGet_memInsert_of_ne _ b h, memGet_memErase_of_ne m h]

theorem memGet_memSet (m : Memory) (a c : Nat) (b : Byte) :
    memGet (memSet m a b) c = if c = a then b else memGet m c := by
  split
  · rename_i h
    rw [h, memGet_memSet_self]
  · rename_i h
    exact memGet_memSet_of_ne m b h

@[simp] theorem memRead_of_le (m : Memory) {a : Nat} (h : a ≤ 0xFFF) : memRead m a = .ok (memGet m a) :=
  if_neg (by omega)

@[simp] theorem memRead_of_gt (m : Memory) {a : Nat} (h : 0xFFF < a) : memRead m a = .error a := if_pos h

theorem memRead_congr {m m' : Memory} {a : Nat} (h : memGet m a = memGet m' a) : memRead m a = memRead m' a := by
  unfold memRead
  rw [h]

theorem memRead_ok {m : Memory} {a : Nat} {b : Byte} : memRead m a = .ok b ↔ a ≤ 0xFFF ∧ memGet m a = b := by
  unfold memRead
  split
  · simp; omega
  · simp; omega

theorem memWrite_of_le (m : Memory) {a : Nat} (b : Byte) (h : a ≤ 0xFFF) : memWrite m a b = .ok (memSet m a b) :=
  if_neg (by omega)

/-! ## The canonical form -/

theorem pairwise_memErase {m : Memory} {a : Nat} (h : m.Pairwise fun c d => c.1 < d.1) :
    (memErase m a).Pairwise fun c d => c.1 < d.1 := List.Pairwise.filter _ h

theorem pairwise_memInsert {m : Memory} {a : Nat} {b : Byte} (h : m.Pairwise fun c d => c.1 < d.1)
    (ha : ∀ c ∈ m, c.1 ≠ a) : (memInsert m a b).Pairwise fun c d => c.1 < d.1 := by
  induction m with
  | nil => simp [memInsert]
  | cons d m ih =>
    rw [List.pairwise_cons] at h
    simp only [List.mem_cons, forall_eq_or_imp] at ha
    unfold memInsert
    split
    · rename_i hlt
      refine List.pairwise_cons.mpr ⟨fun c hc => ?_, List.pairwise_cons.mpr h⟩
      rcases List.mem_cons.mp hc with rfl | hc
      · exact hlt
      · exact Nat.lt_trans hlt (h.1 c hc)
    · rename_i hle
      refine List.pairwise_cons.mpr ⟨fun c hc => ?_, ih h.2 ha.2⟩
      rcases mem_memInsert.mp hc with rfl | hc
      · have := ha.1
        show d.1 < a
        omega
      · exact h.1 c hc

theorem pairwise_memSet {m : Memory} (a : Nat) (b : Byte) (h : m.Pairwise fun c d => c.1 < d.1) :
    (memSet m a b).Pairwise fun c d => c.1 < d.1 := by
  unfold memSet
  split
  · exact pairwise_memErase h
  · exact pairwise_memInsert (pairwise_memErase h) fun c hc => (mem_memErase.mp hc).2

/-- A write to an address that exists keeps the canonical form. -/
theorem wf_memSet {m : Memory} {a : Nat} (b : Byte) (h : Memory.wf m) (ha : a ≤ 0xFFF) : Memory.wf (memSet m a b) := by
  refine ⟨pairwise_memSet a b h.1, fun c hc => ?_⟩
  rcases mem_memSet.mp hc with ⟨rfl, hb⟩ | ⟨hc, -⟩
  · exact ⟨ha, hb⟩
  · exact h.2 c hc

theorem wf_nil : Memory.wf [] := ⟨List.Pairwise.nil, fun _ h => absurd h List.not_mem_nil⟩

theorem memGet_of_forall_ne {m : Memory} {a : Nat} (h : ∀ c ∈ m, c.1 ≠ a) : memGet m a = resetByte a := by
  induction m with
  | nil => rfl
  | cons d m ih =>
    simp only [List.mem_cons, forall_eq_or_imp] at h
    rw [memGet, if_neg h.1, ih h.2]

theorem memGet_of_mem {m : Memory} (h : m.Pairwise fun c d => c.1 < d.1) {c : Host.Cell} (hc : c ∈ m) :
    memGet m c.1 = c.2 := by
  induction m with
  | nil => exact absurd hc List.not_mem_nil
  | cons d m ih =>
    rw [List.pairwise_cons] at h
    rcases List.mem_cons.mp hc with rfl | hc
    · rw [memGet, if_pos rfl]
    · rw [memGet, if_neg (Nat.ne_of_lt (h.1 c hc)), ih h.2 hc]

/-- Two memories in canonical form that read alike are the same list. -/
theorem memory_ext {m m' : Memory} (h : Memory.wf m) (h' : Memory.wf m') (e : ∀ a, memGet m a = memGet m' a) : m = m' := by
  have entries : ∀ {m : Memory} (_ : Memory.wf m) (c : Host.Cell), c ∈ m ↔ memGet m c.1 = c.2 ∧ c.2 ≠ resetByte c.1 := by
    intro m h c
    constructor
    · exact fun hc => ⟨memGet_of_mem h.1 hc, (h.2 c hc).2⟩
    · rintro ⟨hg, hr⟩
      by_contra hn
      by_cases hex : ∃ d ∈ m, d.1 = c.1
      · obtain ⟨d, hd, hdc⟩ := hex
        have := memGet_of_mem h.1 hd
        rw [hdc, hg] at this
        exact hn (Prod.ext hdc this.symm ▸ hd)
      · exact hr (hg.symm.trans (memGet_of_forall_ne fun d hd hdc => hex ⟨d, hd, hdc⟩))
  refine List.Perm.eq_of_pairwise (le := fun c d => c.1 < d.1)
    (fun c d _ _ hcd hdc => absurd hcd (Nat.lt_asymm hdc)) h.1 h'.1 ?_
  have nodup : ∀ {m : Memory}, Memory.wf m → m.Nodup := fun h =>
    List.Pairwise.imp (fun hlt he => Nat.ne_of_lt hlt (congrArg Prod.fst he)) h.1
  exact (List.perm_ext_iff_of_nodup (nodup h) (nodup h')).mpr fun c => by rw [entries h, entries h', e]

/-! ## Words -/

theorem memReadWord_of_le (m : Memory) {a : Nat} (h : a ≤ 0xFFE) :
    memReadWord m a = .ok (wordOfBytes (memGet m a) (memGet m (a + 1))) := by
  simp [memReadWord, memRead_of_le m (show a ≤ 0xFFF by omega), memRead_of_le m (show a + 1 ≤ 0xFFF by omega)]

theorem memReadWord_ok {m : Memory} {a : Nat} {w : Word} :
    memReadWord m a = .ok w ↔ a ≤ 0xFFE ∧ w = wordOfBytes (memGet m a) (memGet m (a + 1)) := by
  by_cases h : a ≤ 0xFFE
  · rw [memReadWord_of_le m h]
    simp [h, eq_comm]
  · unfold memReadWord memRead
    by_cases h2 : a > 0xFFF
    · simp [h2]; omega
    · have : a + 1 > 0xFFF := by omega
      simp [h2, this, h]

/-- What a two-byte read answers when it faults: the lowest offending address. -/
theorem memReadWord_of_gt (m : Memory) {a : Nat} (h : 0xFFE < a) : memReadWord m a = .error (max a 0x1000) := by
  unfold memReadWord memRead
  by_cases h2 : a > 0xFFF
  · simp [h2]; omega
  · obtain rfl : a = 0xFFF := by omega
    simp

/-! ## Blocks -/

/-- Everything `loadBytes` can answer: the bytes, if all their addresses exist, else the lowest that does not. -/
theorem loadBytes_eq (m : Memory) (a n : Nat) :
    loadBytes m a n = if n = 0 ∨ a + n ≤ 0x1000 then .ok ((List.range n).map fun k => memGet m (a + k))
      else .error (max a 0x1000) := by
  induction n generalizing a with
  | zero => simp [loadBytes]
  | succ n ih =>
    unfold loadBytes
    by_cases ha : a ≤ 0xFFF
    · rw [memRead_of_le m ha, ih]
      by_cases h : n = 0 ∨ a + 1 + n ≤ 0x1000
      · have h' : n + 1 = 0 ∨ a + (n + 1) ≤ 0x1000 := by omega
        rw [if_pos h, if_pos h', List.range_succ_eq_map]
        simp [Function.comp_def, Nat.add_right_comm, Nat.add_assoc]
      · have h' : ¬ (n + 1 = 0 ∨ a + (n + 1) ≤ 0x1000) := by omega
        rw [if_neg h, if_neg h']
        have : max (a + 1) 0x1000 = max a 0x1000 := by omega
        simp only [this]
    · have h' : ¬ (n + 1 = 0 ∨ a + (n + 1) ≤ 0x1000) := by omega
      rw [memRead_of_gt m (by omega), if_neg h']
      have : max a 0x1000 = a := by omega
      simp only [this]

theorem loadBytes_ok {m : Memory} {a n : Nat} {bs : List Byte} (h : loadBytes m a n = .ok bs) :
    (n = 0 ∨ a + n ≤ 0x1000) ∧ bs = (List.range n).map fun k => memGet m (a + k) := by
  rw [loadBytes_eq] at h
  split at h
  · rename_i hr
    exact ⟨hr, by simpa using h.symm⟩
  · exact absurd h (by simp)

theorem loadBytes_error {m : Memory} {a n e : Nat} (h : loadBytes m a n = .error e) :
    ¬ (n = 0 ∨ a + n ≤ 0x1000) ∧ e = max a 0x1000 := by
  rw [loadBytes_eq] at h
  split at h
  · exact absurd h (by simp)
  · rename_i hr
    exact ⟨hr, by simpa using h.symm⟩

theorem cpuStore_of_bounds (m : Memory) {a : Nat} (b : Byte) (h : 0x200 ≤ a) (h' : a ≤ 0xFFF) :
    cpuStore m a b = .ok (memSet m a b) := by
  rw [cpuStore, if_neg (by omega), if_neg (by omega), memWrite_of_le m b h']

theorem cpuStore_of_gt (m : Memory) {a : Nat} (b : Byte) (h : 0xFFF < a) :
    cpuStore m a b = .error (.addressOutOfRange, a) := if_pos h

theorem cpuStore_of_lt (m : Memory) {a : Nat} (b : Byte) (h : a < 0x200) :
    cpuStore m a b = .error (.writeProtected, a) := by
  rw [cpuStore, if_neg (by omega), if_pos h]

/-- Everything `storeBytes` can answer, of a block no longer than the room below 0x1000 that starts below 0x200: the
bytes stored, or WriteProtected at the first address, or AddressOutOfRange at the lowest that does not exist. -/
theorem storeBytes_eq (m : Memory) (a : Nat) (bs : List Byte) (hlen : bs.length ≤ 16) :
    storeBytes m a bs =
      if bs = [] then .ok m
      else if a + bs.length > 0x1000 then .error (.addressOutOfRange, max a 0x1000)
      else if a < 0x200 then .error (.writeProtected, a)
      else .ok (memSetBytes m a bs) := by
  induction bs generalizing m a with
  | nil => rfl
  | cons b bs ih =>
    have hlen' : bs.length ≤ 16 := by simp at hlen; omega
    unfold storeBytes
    rw [if_neg (List.cons_ne_nil b bs)]
    simp only [List.length_cons] at hlen ⊢
    by_cases hlow : a < 0x200
    · rw [cpuStore_of_lt m b hlow, if_neg (by omega), if_pos hlow]
    by_cases hhigh : a ≤ 0xFFF
    · rw [cpuStore_of_bounds m b (by omega) hhigh]
      simp only
      rw [ih _ _ hlen']
      by_cases hnil : bs = []
      · subst hnil
        rw [if_pos rfl, if_neg (by simp; omega), if_neg hlow]
        rfl
      · have hpos : 0 < bs.length := List.length_pos_iff.mpr hnil
        rw [if_neg hnil]
        by_cases hend : a + 1 + bs.length > 0x1000
        · rw [if_pos hend, if_pos (by omega)]
          have : max (a + 1) 0x1000 = max a 0x1000 := by omega
          rw [this]
        · rw [if_neg hend, if_neg (by omega), if_neg (by omega), if_neg hlow]
          rfl
    · rw [cpuStore_of_gt m b (by omega), if_pos (by omega)]
      have : max a 0x1000 = a := by omega
      rw [this]

/-- What a byte reads as after a block is written. -/
theorem memGet_memSetBytes (m : Memory) (a : Nat) (bs : List Byte) (c : Nat) :
    memGet (memSetBytes m a bs) c = if a ≤ c then bs.getD (c - a) (memGet m c) else memGet m c := by
  induction bs generalizing m a with
  | nil => simp [memSetBytes]
  | cons b bs ih =>
    rw [memSetBytes, ih, memGet_memSet]
    by_cases h : c = a
    · subst h
      simp
    · by_cases hlt : a ≤ c
      · obtain ⟨k, rfl⟩ : ∃ k, c = a + 1 + k := ⟨c - (a + 1), by omega⟩
        have h1 : a + 1 + k - a = k + 1 := by omega
        have h2 : a + 1 + k - (a + 1) = k := by omega
        simp [h1, h2, h, show a ≤ a + 1 + k by omega]
      · simp [h, hlt, show ¬ a + 1 ≤ c by omega]

/-- The entries of a memory after a block is written are the old ones and some within the block. -/
theorem mem_memSetBytes {m : Memory} {a : Nat} {bs : List Byte} {c : Host.Cell} (h : c ∈ memSetBytes m a bs) :
    c ∈ m ∨ (a ≤ c.1 ∧ c.1 < a + bs.length) := by
  induction bs generalizing m a with
  | nil => exact .inl h
  | cons b bs ih =>
    simp only [List.length_cons]
    rcases ih h with h | h
    · rcases mem_memSet.mp h with ⟨rfl, -⟩ | ⟨h, -⟩
      · exact .inr ⟨Nat.le_refl a, by omega⟩
      · exact .inl h
    · exact .inr (by omega)

theorem wf_memSetBytes {m : Memory} {a : Nat} {bs : List Byte} (h : Memory.wf m) (ha : a + bs.length ≤ 0x1000) :
    Memory.wf (memSetBytes m a bs) := by
  induction bs generalizing m a with
  | nil => exact h
  | cons b bs ih =>
    simp only [List.length_cons] at ha
    exact ih (wf_memSet b h (by omega)) (by omega)

end Sys2Proof.Machine
end

