-- ==== Sys2Proof/Laws/State.lean ====
section
/-! SUPPORT. One lemma per field of State and update of it: what the field holds after the update. -/

namespace Sys2Proof.Machine

/-! ### setV -/

@[simp] theorem setV_v (s : State) (r : Reg) (b : Byte) : (setV s r b).v = s.v.set r b := rfl
@[simp] theorem setV_i (s : State) (r : Reg) (b : Byte) : (setV s r b).i = s.i := rfl
@[simp] theorem setV_pc (s : State) (r : Reg) (b : Byte) : (setV s r b).pc = s.pc := rfl
@[simp] theorem setV_sp (s : State) (r : Reg) (b : Byte) : (setV s r b).sp = s.sp := rfl
@[simp] theorem setV_stack (s : State) (r : Reg) (b : Byte) : (setV s r b).stack = s.stack := rfl
@[simp] theorem setV_dt (s : State) (r : Reg) (b : Byte) : (setV s r b).dt = s.dt := rfl
@[simp] theorem setV_st (s : State) (r : Reg) (b : Byte) : (setV s r b).st = s.st := rfl
@[simp] theorem setV_mem (s : State) (r : Reg) (b : Byte) : (setV s r b).mem = s.mem := rfl
@[simp] theorem setV_fb (s : State) (r : Reg) (b : Byte) : (setV s r b).fb = s.fb := rfl
@[simp] theorem setV_key (s : State) (r : Reg) (b : Byte) : (setV s r b).key = s.key := rfl
@[simp] theorem setV_status (s : State) (r : Reg) (b : Byte) : (setV s r b).status = s.status := rfl
@[simp] theorem setV_record (s : State) (r : Reg) (b : Byte) : (setV s r b).record = s.record := rfl
@[simp] theorem setV_params (s : State) (r : Reg) (b : Byte) : (setV s r b).params = s.params := rfl
@[simp] theorem setV_draws (s : State) (r : Reg) (b : Byte) : (setV s r b).draws = s.draws := rfl
@[simp] theorem setV_sched (s : State) (r : Reg) (b : Byte) : (setV s r b).sched = s.sched := rfl
@[simp] theorem setV_host (s : State) (r : Reg) (b : Byte) : (setV s r b).host = s.host := rfl
@[simp] theorem setV_turns (s : State) (r : Reg) (b : Byte) : (setV s r b).turns = s.turns := rfl
@[simp] theorem setV_loaded (s : State) (r : Reg) (b : Byte) : (setV s r b).loaded = s.loaded := rfl

/-! ### setVs -/

@[simp] theorem setVs_v (s : State) (bs : List Byte) : (setVs s bs).v = Vector.ofFn fun r : Reg => bs.getD r.val s.v[r] := rfl
@[simp] theorem setVs_i (s : State) (bs : List Byte) : (setVs s bs).i = s.i := rfl
@[simp] theorem setVs_pc (s : State) (bs : List Byte) : (setVs s bs).pc = s.pc := rfl
@[simp] theorem setVs_sp (s : State) (bs : List Byte) : (setVs s bs).sp = s.sp := rfl
@[simp] theorem setVs_stack (s : State) (bs : List Byte) : (setVs s bs).stack = s.stack := rfl
@[simp] theorem setVs_dt (s : State) (bs : List Byte) : (setVs s bs).dt = s.dt := rfl
@[simp] theorem setVs_st (s : State) (bs : List Byte) : (setVs s bs).st = s.st := rfl
@[simp] theorem setVs_mem (s : State) (bs : List Byte) : (setVs s bs).mem = s.mem := rfl
@[simp] theorem setVs_fb (s : State) (bs : List Byte) : (setVs s bs).fb = s.fb := rfl
@[simp] theorem setVs_key (s : State) (bs : List Byte) : (setVs s bs).key = s.key := rfl
@[simp] theorem setVs_status (s : State) (bs : List Byte) : (setVs s bs).status = s.status := rfl
@[simp] theorem setVs_record (s : State) (bs : List Byte) : (setVs s bs).record = s.record := rfl
@[simp] theorem setVs_params (s : State) (bs : List Byte) : (setVs s bs).params = s.params := rfl
@[simp] theorem setVs_draws (s : State) (bs : List Byte) : (setVs s bs).draws = s.draws := rfl
@[simp] theorem setVs_sched (s : State) (bs : List Byte) : (setVs s bs).sched = s.sched := rfl
@[simp] theorem setVs_host (s : State) (bs : List Byte) : (setVs s bs).host = s.host := rfl
@[simp] theorem setVs_turns (s : State) (bs : List Byte) : (setVs s bs).turns = s.turns := rfl
@[simp] theorem setVs_loaded (s : State) (bs : List Byte) : (setVs s bs).loaded = s.loaded := rfl

/-! ### setFlag -/

@[simp] theorem setFlag_v (s : State) (f : Bool) : (setFlag s f).v = s.v.set regVF (flagByte f) := rfl
@[simp] theorem setFlag_i (s : State) (f : Bool) : (setFlag s f).i = s.i := rfl
@[simp] theorem setFlag_pc (s : State) (f : Bool) : (setFlag s f).pc = s.pc := rfl
@[simp] theorem setFlag_sp (s : State) (f : Bool) : (setFlag s f).sp = s.sp := rfl
@[simp] theorem setFlag_stack (s : State) (f : Bool) : (setFlag s f).stack = s.stack := rfl
@[simp] theorem setFlag_dt (s : State) (f : Bool) : (setFlag s f).dt = s.dt := rfl
@[simp] theorem setFlag_st (s : State) (f : Bool) : (setFlag s f).st = s.st := rfl
@[simp] theorem setFlag_mem (s : State) (f : Bool) : (setFlag s f).mem = s.mem := rfl
@[simp] theorem setFlag_fb (s : State) (f : Bool) : (setFlag s f).fb = s.fb := rfl
@[simp] theorem setFlag_key (s : State) (f : Bool) : (setFlag s f).key = s.key := rfl
@[simp] theorem setFlag_status (s : State) (f : Bool) : (setFlag s f).status = s.status := rfl
@[simp] theorem setFlag_record (s : State) (f : Bool) : (setFlag s f).record = s.record := rfl
@[simp] theorem setFlag_params (s : State) (f : Bool) : (setFlag s f).params = s.params := rfl
@[simp] theorem setFlag_draws (s : State) (f : Bool) : (setFlag s f).draws = s.draws := rfl
@[simp] theorem setFlag_sched (s : State) (f : Bool) : (setFlag s f).sched = s.sched := rfl
@[simp] theorem setFlag_host (s : State) (f : Bool) : (setFlag s f).host = s.host := rfl
@[simp] theorem setFlag_turns (s : State) (f : Bool) : (setFlag s f).turns = s.turns := rfl
@[simp] theorem setFlag_loaded (s : State) (f : Bool) : (setFlag s f).loaded = s.loaded := rfl

/-! ### setResultAndFlag -/

@[simp] theorem setResultAndFlag_v (s : State) (x : Reg) (b : Byte) (f : Bool) : (setResultAndFlag s x b f).v = (s.v.set x b).set regVF (flagByte f) := rfl
@[simp] theorem setResultAndFlag_i (s : State) (x : Reg) (b : Byte) (f : Bool) : (setResultAndFlag s x b f).i = s.i := rfl
@[simp] theorem setResultAndFlag_pc (s : State) (x : Reg) (b : Byte) (f : Bool) : (setResultAndFlag s x b f).pc = s.pc := rfl
@[simp] theorem setResultAndFlag_sp (s : State) (x : Reg) (b : Byte) (f : Bool) : (setResultAndFlag s x b f).sp = s.sp := rfl
@[simp] theorem setResultAndFlag_stack (s : State) (x : Reg) (b : Byte) (f : Bool) : (setResultAndFlag s x b f).stack = s.stack := rfl
@[simp] theorem setResultAndFlag_dt (s : State) (x : Reg) (b : Byte) (f : Bool) : (setResultAndFlag s x b f).dt = s.dt := rfl
@[simp] theorem setResultAndFlag_st (s : State) (x : Reg) (b : Byte) (f : Bool) : (setResultAndFlag s x b f).st = s.st := rfl
@[simp] theorem setResultAndFlag_mem (s : State) (x : Reg) (b : Byte) (f : Bool) : (setResultAndFlag s x b f).mem = s.mem := rfl
@[simp] theorem setResultAndFlag_fb (s : State) (x : Reg) (b : Byte) (f : Bool) : (setResultAndFlag s x b f).fb = s.fb := rfl
@[simp] theorem setResultAndFlag_key (s : State) (x : Reg) (b : Byte) (f : Bool) : (setResultAndFlag s x b f).key = s.key := rfl
@[simp] theorem setResultAndFlag_status (s : State) (x : Reg) (b : Byte) (f : Bool) : (setResultAndFlag s x b f).status = s.status := rfl
@[simp] theorem setResultAndFlag_record (s : State) (x : Reg) (b : Byte) (f : Bool) : (setResultAndFlag s x b f).record = s.record := rfl
@[simp] theorem setResultAndFlag_params (s : State) (x : Reg) (b : Byte) (f : Bool) : (setResultAndFlag s x b f).params = s.params := rfl
@[simp] theorem setResultAndFlag_draws (s : State) (x : Reg) (b : Byte) (f : Bool) : (setResultAndFlag s x b f).draws = s.draws := rfl
@[simp] theorem setResultAndFlag_sched (s : State) (x : Reg) (b : Byte) (f : Bool) : (setResultAndFlag s x b f).sched = s.sched := rfl
@[simp] theorem setResultAndFlag_host (s : State) (x : Reg) (b : Byte) (f : Bool) : (setResultAndFlag s x b f).host = s.host := rfl
@[simp] theorem setResultAndFlag_turns (s : State) (x : Reg) (b : Byte) (f : Bool) : (setResultAndFlag s x b f).turns = s.turns := rfl
@[simp] theorem setResultAndFlag_loaded (s : State) (x : Reg) (b : Byte) (f : Bool) : (setResultAndFlag s x b f).loaded = s.loaded := rfl

/-! ### advance -/

@[simp] theorem advance_v (s : State) : (advance s).v = s.v := rfl
@[simp] theorem advance_i (s : State) : (advance s).i = s.i := rfl
@[simp] theorem advance_pc (s : State) : (advance s).pc = npc s := rfl
@[simp] theorem advance_sp (s : State) : (advance s).sp = s.sp := rfl
@[simp] theorem advance_stack (s : State) : (advance s).stack = s.stack := rfl
@[simp] theorem advance_dt (s : State) : (advance s).dt = s.dt := rfl
@[simp] theorem advance_st (s : State) : (advance s).st = s.st := rfl
@[simp] theorem advance_mem (s : State) : (advance s).mem = s.mem := rfl
@[simp] theorem advance_fb (s : State) : (advance s).fb = s.fb := rfl
@[simp] theorem advance_key (s : State) : (advance s).key = s.key := rfl
@[simp] theorem advance_status (s : State) : (advance s).status = s.status := rfl
@[simp] theorem advance_record (s : State) : (advance s).record = s.record := rfl
@[simp] theorem advance_params (s : State) : (advance s).params = s.params := rfl
@[simp] theorem advance_draws (s : State) : (advance s).draws = s.draws := rfl
@[simp] theorem advance_sched (s : State) : (advance s).sched = s.sched := rfl
@[simp] theorem advance_host (s : State) : (advance s).host = s.host := rfl
@[simp] theorem advance_turns (s : State) : (advance s).turns = s.turns := rfl
@[simp] theorem advance_loaded (s : State) : (advance s).loaded = s.loaded := rfl

/-! ### jumpTo -/

@[simp] theorem jumpTo_v (s : State) (a : Word) : (jumpTo s a).v = s.v := rfl
@[simp] theorem jumpTo_i (s : State) (a : Word) : (jumpTo s a).i = s.i := rfl
@[simp] theorem jumpTo_pc (s : State) (a : Word) : (jumpTo s a).pc = a := rfl
@[simp] theorem jumpTo_sp (s : State) (a : Word) : (jumpTo s a).sp = s.sp := rfl
@[simp] theorem jumpTo_stack (s : State) (a : Word) : (jumpTo s a).stack = s.stack := rfl
@[simp] theorem jumpTo_dt (s : State) (a : Word) : (jumpTo s a).dt = s.dt := rfl
@[simp] theorem jumpTo_st (s : State) (a : Word) : (jumpTo s a).st = s.st := rfl
@[simp] theorem jumpTo_mem (s : State) (a : Word) : (jumpTo s a).mem = s.mem := rfl
@[simp] theorem jumpTo_fb (s : State) (a : Word) : (jumpTo s a).fb = s.fb := rfl
@[simp] theorem jumpTo_key (s : State) (a : Word) : (jumpTo s a).key = s.key := rfl
@[simp] theorem jumpTo_status (s : State) (a : Word) : (jumpTo s a).status = s.status := rfl
@[simp] theorem jumpTo_record (s : State) (a : Word) : (jumpTo s a).record = s.record := rfl
@[simp] theorem jumpTo_params (s : State) (a : Word) : (jumpTo s a).params = s.params := rfl
@[simp] theorem jumpTo_draws (s : State) (a : Word) : (jumpTo s a).draws = s.draws := rfl
@[simp] theorem jumpTo_sched (s : State) (a : Word) : (jumpTo s a).sched = s.sched := rfl
@[simp] theorem jumpTo_host (s : State) (a : Word) : (jumpTo s a).host = s.host := rfl
@[simp] theorem jumpTo_turns (s : State) (a : Word) : (jumpTo s a).turns = s.turns := rfl
@[simp] theorem jumpTo_loaded (s : State) (a : Word) : (jumpTo s a).loaded = s.loaded := rfl

/-! ### skipIf -/

@[simp] theorem skipIf_v (s : State) (c : Bool) : (skipIf s c).v = s.v := rfl
@[simp] theorem skipIf_i (s : State) (c : Bool) : (skipIf s c).i = s.i := rfl
@[simp] theorem skipIf_pc (s : State) (c : Bool) : (skipIf s c).pc = if c then npc s + 2#16 else npc s := rfl
@[simp] theorem skipIf_sp (s : State) (c : Bool) : (skipIf s c).sp = s.sp := rfl
@[simp] theorem skipIf_stack (s : State) (c : Bool) : (skipIf s c).stack = s.stack := rfl
@[simp] theorem skipIf_dt (s : State) (c : Bool) : (skipIf s c).dt = s.dt := rfl
@[simp] theorem skipIf_st (s : State) (c : Bool) : (skipIf s c).st = s.st := rfl
@[simp] theorem skipIf_mem (s : State) (c : Bool) : (skipIf s c).mem = s.mem := rfl
@[simp] theorem skipIf_fb (s : State) (c : Bool) : (skipIf s c).fb = s.fb := rfl
@[simp] theorem skipIf_key (s : State) (c : Bool) : (skipIf s c).key = s.key := rfl
@[simp] theorem skipIf_status (s : State) (c : Bool) : (skipIf s c).status = s.status := rfl
@[simp] theorem skipIf_record (s : State) (c : Bool) : (skipIf s c).record = s.record := rfl
@[simp] theorem skipIf_params (s : State) (c : Bool) : (skipIf s c).params = s.params := rfl
@[simp] theorem skipIf_draws (s : State) (c : Bool) : (skipIf s c).draws = s.draws := rfl
@[simp] theorem skipIf_sched (s : State) (c : Bool) : (skipIf s c).sched = s.sched := rfl
@[simp] theorem skipIf_host (s : State) (c : Bool) : (skipIf s c).host = s.host := rfl
@[simp] theorem skipIf_turns (s : State) (c : Bool) : (skipIf s c).turns = s.turns := rfl
@[simp] theorem skipIf_loaded (s : State) (c : Bool) : (skipIf s c).loaded = s.loaded := rfl

/-! ### enterFault -/

@[simp] theorem enterFault_v (s : State) (c : Cause) (w : Word) (a : Nat) : (enterFault s c w a).v = s.v := rfl
@[simp] theorem enterFault_i (s : State) (c : Cause) (w : Word) (a : Nat) : (enterFault s c w a).i = s.i := rfl
@[simp] theorem enterFault_pc (s : State) (c : Cause) (w : Word) (a : Nat) : (enterFault s c w a).pc = s.pc := rfl
@[simp] theorem enterFault_sp (s : State) (c : Cause) (w : Word) (a : Nat) : (enterFault s c w a).sp = s.sp := rfl
@[simp] theorem enterFault_stack (s : State) (c : Cause) (w : Word) (a : Nat) : (enterFault s c w a).stack = s.stack := rfl
@[simp] theorem enterFault_dt (s : State) (c : Cause) (w : Word) (a : Nat) : (enterFault s c w a).dt = s.dt := rfl
@[simp] theorem enterFault_st (s : State) (c : Cause) (w : Word) (a : Nat) : (enterFault s c w a).st = s.st := rfl
@[simp] theorem enterFault_mem (s : State) (c : Cause) (w : Word) (a : Nat) : (enterFault s c w a).mem = s.mem := rfl
@[simp] theorem enterFault_fb (s : State) (c : Cause) (w : Word) (a : Nat) : (enterFault s c w a).fb = s.fb := rfl
@[simp] theorem enterFault_key (s : State) (c : Cause) (w : Word) (a : Nat) : (enterFault s c w a).key = s.key := rfl
@[simp] theorem enterFault_status (s : State) (c : Cause) (w : Word) (a : Nat) : (enterFault s c w a).status = .faulted := rfl
@[simp] theorem enterFault_record (s : State) (c : Cause) (w : Word) (a : Nat) : (enterFault s c w a).record = { cause := some c, fpc := s.pc, finsn := w, faddr := a } := rfl
@[simp] theorem enterFault_params (s : State) (c : Cause) (w : Word) (a : Nat) : (enterFault s c w a).params = s.params := rfl
@[simp] theorem enterFault_draws (s : State) (c : Cause) (w : Word) (a : Nat) : (enterFault s c w a).draws = s.draws := rfl
@[simp] theorem enterFault_sched (s : State) (c : Cause) (w : Word) (a : Nat) : (enterFault s c w a).sched = s.sched := rfl
@[simp] theorem enterFault_host (s : State) (c : Cause) (w : Word) (a : Nat) : (enterFault s c w a).host = s.host := rfl
@[simp] theorem enterFault_turns (s : State) (c : Cause) (w : Word) (a : Nat) : (enterFault s c w a).turns = s.turns := rfl
@[simp] theorem enterFault_loaded (s : State) (c : Cause) (w : Word) (a : Nat) : (enterFault s c w a).loaded = s.loaded := rfl

/-! ### tickTimers -/

@[simp] theorem tickTimers_v (s : State) : (tickTimers s).v = s.v := rfl
@[simp] theorem tickTimers_i (s : State) : (tickTimers s).i = s.i := rfl
@[simp] theorem tickTimers_pc (s : State) : (tickTimers s).pc = s.pc := rfl
@[simp] theorem tickTimers_sp (s : State) : (tickTimers s).sp = s.sp := rfl
@[simp] theorem tickTimers_stack (s : State) : (tickTimers s).stack = s.stack := rfl
@[simp] theorem tickTimers_dt (s : State) : (tickTimers s).dt = if s.dt ≠ 0#8 then s.dt - 1#8 else s.dt := rfl
@[simp] theorem tickTimers_st (s : State) : (tickTimers s).st = if s.st ≠ 0#8 then s.st - 1#8 else s.st := rfl
@[simp] theorem tickTimers_mem (s : State) : (tickTimers s).mem = s.mem := rfl
@[simp] theorem tickTimers_fb (s : State) : (tickTimers s).fb = s.fb := rfl
@[simp] theorem tickTimers_key (s : State) : (tickTimers s).key = s.key := rfl
@[simp] theorem tickTimers_status (s : State) : (tickTimers s).status = s.status := rfl
@[simp] theorem tickTimers_record (s : State) : (tickTimers s).record = s.record := rfl
@[simp] theorem tickTimers_params (s : State) : (tickTimers s).params = s.params := rfl
@[simp] theorem tickTimers_draws (s : State) : (tickTimers s).draws = s.draws := rfl
@[simp] theorem tickTimers_sched (s : State) : (tickTimers s).sched = s.sched := rfl
@[simp] theorem tickTimers_host (s : State) : (tickTimers s).host = s.host := rfl
@[simp] theorem tickTimers_turns (s : State) : (tickTimers s).turns = s.turns := rfl
@[simp] theorem tickTimers_loaded (s : State) : (tickTimers s).loaded = s.loaded := rfl

/-! ### setKey -/

@[simp] theorem setKey_v (k : Key) (p : Bool) (s : State) : (setKey k p s).v = s.v := rfl
@[simp] theorem setKey_i (k : Key) (p : Bool) (s : State) : (setKey k p s).i = s.i := rfl
@[simp] theorem setKey_pc (k : Key) (p : Bool) (s : State) : (setKey k p s).pc = s.pc := rfl
@[simp] theorem setKey_sp (k : Key) (p : Bool) (s : State) : (setKey k p s).sp = s.sp := rfl
@[simp] theorem setKey_stack (k : Key) (p : Bool) (s : State) : (setKey k p s).stack = s.stack := rfl
@[simp] theorem setKey_dt (k : Key) (p : Bool) (s : State) : (setKey k p s).dt = s.dt := rfl
@[simp] theorem setKey_st (k : Key) (p : Bool) (s : State) : (setKey k p s).st = s.st := rfl
@[simp] theorem setKey_mem (k : Key) (p : Bool) (s : State) : (setKey k p s).mem = s.mem := rfl
@[simp] theorem setKey_fb (k : Key) (p : Bool) (s : State) : (setKey k p s).fb = s.fb := rfl
@[simp] theorem setKey_key (k : Key) (p : Bool) (s : State) : (setKey k p s).key = s.key.set k p := rfl
@[simp] theorem setKey_status (k : Key) (p : Bool) (s : State) : (setKey k p s).status = s.status := rfl
@[simp] theorem setKey_record (k : Key) (p : Bool) (s : State) : (setKey k p s).record = s.record := rfl
@[simp] theorem setKey_params (k : Key) (p : Bool) (s : State) : (setKey k p s).params = s.params := rfl
@[simp] theorem setKey_draws (k : Key) (p : Bool) (s : State) : (setKey k p s).draws = s.draws := rfl
@[simp] theorem setKey_sched (k : Key) (p : Bool) (s : State) : (setKey k p s).sched = s.sched := rfl
@[simp] theorem setKey_host (k : Key) (p : Bool) (s : State) : (setKey k p s).host = s.host := rfl
@[simp] theorem setKey_turns (k : Key) (p : Bool) (s : State) : (setKey k p s).turns = s.turns := rfl
@[simp] theorem setKey_loaded (k : Key) (p : Bool) (s : State) : (setKey k p s).loaded = s.loaded := rfl

/-! ### resetOp -/

@[simp] theorem resetOp_v (s : State) : (resetOp s).v = State.reset.v := rfl
@[simp] theorem resetOp_i (s : State) : (resetOp s).i = State.reset.i := rfl
@[simp] theorem resetOp_pc (s : State) : (resetOp s).pc = State.reset.pc := rfl
@[simp] theorem resetOp_sp (s : State) : (resetOp s).sp = State.reset.sp := rfl
@[simp] theorem resetOp_stack (s : State) : (resetOp s).stack = State.reset.stack := rfl
@[simp] theorem resetOp_dt (s : State) : (resetOp s).dt = State.reset.dt := rfl
@[simp] theorem resetOp_st (s : State) : (resetOp s).st = State.reset.st := rfl
@[simp] theorem resetOp_mem (s : State) : (resetOp s).mem = State.reset.mem := rfl
@[simp] theorem resetOp_fb (s : State) : (resetOp s).fb = State.reset.fb := rfl
@[simp] theorem resetOp_key (s : State) : (resetOp s).key = State.reset.key := rfl
@[simp] theorem resetOp_status (s : State) : (resetOp s).status = State.reset.status := rfl
@[simp] theorem resetOp_record (s : State) : (resetOp s).record = State.reset.record := rfl
@[simp] theorem resetOp_params (s : State) : (resetOp s).params = s.params := rfl
@[simp] theorem resetOp_draws (s : State) : (resetOp s).draws = s.draws := rfl
@[simp] theorem resetOp_sched (s : State) : (resetOp s).sched = s.sched := rfl
@[simp] theorem resetOp_host (s : State) : (resetOp s).host = s.host := rfl
@[simp] theorem resetOp_turns (s : State) : (resetOp s).turns = s.turns := rfl
@[simp] theorem resetOp_loaded (s : State) : (resetOp s).loaded = false := rfl

/-! ### markLoaded -/

@[simp] theorem markLoaded_v (s : State) : (markLoaded s).v = s.v := rfl
@[simp] theorem markLoaded_i (s : State) : (markLoaded s).i = s.i := rfl
@[simp] theorem markLoaded_pc (s : State) : (markLoaded s).pc = s.pc := rfl
@[simp] theorem markLoaded_sp (s : State) : (markLoaded s).sp = s.sp := rfl
@[simp] theorem markLoaded_stack (s : State) : (markLoaded s).stack = s.stack := rfl
@[simp] theorem markLoaded_dt (s : State) : (markLoaded s).dt = s.dt := rfl
@[simp] theorem markLoaded_st (s : State) : (markLoaded s).st = s.st := rfl
@[simp] theorem markLoaded_mem (s : State) : (markLoaded s).mem = s.mem := rfl
@[simp] theorem markLoaded_fb (s : State) : (markLoaded s).fb = s.fb := rfl
@[simp] theorem markLoaded_key (s : State) : (markLoaded s).key = s.key := rfl
@[simp] theorem markLoaded_status (s : State) : (markLoaded s).status = s.status := rfl
@[simp] theorem markLoaded_record (s : State) : (markLoaded s).record = s.record := rfl
@[simp] theorem markLoaded_params (s : State) : (markLoaded s).params = s.params := rfl
@[simp] theorem markLoaded_draws (s : State) : (markLoaded s).draws = s.draws := rfl
@[simp] theorem markLoaded_sched (s : State) : (markLoaded s).sched = s.sched := rfl
@[simp] theorem markLoaded_host (s : State) : (markLoaded s).host = s.host := rfl
@[simp] theorem markLoaded_turns (s : State) : (markLoaded s).turns = s.turns := rfl
@[simp] theorem markLoaded_loaded (s : State) : (markLoaded s).loaded = true := rfl

/-! ### takeOp -/

@[simp] theorem takeOp_v (s : State) : (takeOp s).v = s.v := by
  unfold takeOp
  split
  · rfl
  · split <;> rfl
@[simp] theorem takeOp_i (s : State) : (takeOp s).i = s.i := by
  unfold takeOp
  split
  · rfl
  · split <;> rfl
@[simp] theorem takeOp_pc (s : State) : (takeOp s).pc = s.pc := by
  unfold takeOp
  split
  · rfl
  · split <;> rfl
@[simp] theorem takeOp_sp (s : State) : (takeOp s).sp = s.sp := by
  unfold takeOp
  split
  · rfl
  · split <;> rfl
@[simp] theorem takeOp_stack (s : State) : (takeOp s).stack = s.stack := by
  unfold takeOp
  split
  · rfl
  · split <;> rfl
@[simp] theorem takeOp_dt (s : State) : (takeOp s).dt = s.dt := by
  unfold takeOp
  split
  · rfl
  · split <;> rfl
@[simp] theorem takeOp_st (s : State) : (takeOp s).st = s.st := by
  unfold takeOp
  split
  · rfl
  · split <;> rfl
@[simp] theorem takeOp_mem (s : State) : (takeOp s).mem = s.mem := by
  unfold takeOp
  split
  · rfl
  · split <;> rfl
@[simp] theorem takeOp_fb (s : State) : (takeOp s).fb = s.fb := by
  unfold takeOp
  split
  · rfl
  · split <;> rfl
@[simp] theorem takeOp_key (s : State) : (takeOp s).key = s.key := by
  unfold takeOp
  split
  · rfl
  · split <;> rfl
@[simp] theorem takeOp_status (s : State) : (takeOp s).status = s.status := by
  unfold takeOp
  split
  · rfl
  · split <;> rfl
@[simp] theorem takeOp_record (s : State) : (takeOp s).record = s.record := by
  unfold takeOp
  split
  · rfl
  · split <;> rfl
@[simp] theorem takeOp_params (s : State) : (takeOp s).params = s.params := by
  unfold takeOp
  split
  · rfl
  · split <;> rfl
@[simp] theorem takeOp_draws (s : State) : (takeOp s).draws = s.draws := by
  unfold takeOp
  split
  · rfl
  · split <;> rfl
@[simp] theorem takeOp_host (s : State) : (takeOp s).host = s.host := by
  unfold takeOp
  split
  · rfl
  · split <;> rfl
@[simp] theorem takeOp_loaded (s : State) : (takeOp s).loaded = s.loaded := by
  unfold takeOp
  split
  · rfl
  · split <;> rfl

theorem takeOp_of_sched {s : State} {op : Config.HostOp} {rest : List Config.HostOp} (h : s.sched = op :: rest) :
    nextOp s = op ∧ takeOp s = { s with sched := rest } := by
  simp [nextOp, takeOp, h]

theorem takeOp_of_free {s : State} (h : s.sched = []) (hh : s.host = .free) :
    nextOp s = Config.hostChoice s.turns ∧ takeOp s = { s with turns := s.turns + 1 } := by
  simp [nextOp, takeOp, h, hh]

theorem takeOp_of_cycleOnly {s : State} (h : s.sched = []) (hh : s.host = .cycleOnly) :
    nextOp s = .cycle ∧ takeOp s = s := by
  simp [nextOp, takeOp, h, hh]

end Sys2Proof.Machine
end

