-- ==== Sys2Proof/Laws/Blocks.lean ====
section
/-! SUPPORT. The one lemma for each block instruction's shared operation, saying everything it can answer. -/

namespace Sys2Proof.Machine

theorem length_valuesUpTo (s : State) (x : Reg) : (valuesUpTo s x).length = x.val + 1 := by
  simp [valuesUpTo]

theorem getD_valuesUpTo (s : State) (x k : Reg) (h : k ≤ x) (d : Byte) : (valuesUpTo s x).getD k.val d = getV s k := by
  have hk : k.val < x.val + 1 := Nat.lt_succ_of_le h
  rw [List.getD_eq_getElem?_getD, valuesUpTo, List.getElem?_take, if_pos hk]
  simp [getV]

/-- Everything `storeAtI` can answer: the bytes stored and PC moved on, or one of the two faults, which exclude each
other. -/
theorem storeAtI_eq (i : Instr) (bs : List Byte) (s : State) (hpos : bs ≠ []) (hlen : bs.length ≤ 16) :
    storeAtI i bs s =
      if s.i.toNat + bs.length > 0x1000 then raise s .addressOutOfRange i (max s.i.toNat 0x1000)
      else if s.i.toNat < 0x200 then raise s .writeProtected i s.i.toNat
      else .next (advance { s with mem := memSetBytes s.mem s.i.toNat bs }) := by
  unfold storeAtI
  rw [storeBytes_eq _ _ _ hlen, if_neg hpos]
  split_ifs <;> rfl

theorem execStoreRegs_eq (x : Reg) (s : State) :
    execStoreRegs x s =
      if s.i.toNat + x.val > 0xFFF then raise s .addressOutOfRange (.storeRegs x) (max s.i.toNat 0x1000)
      else if s.i.toNat < 0x200 then raise s .writeProtected (.storeRegs x) s.i.toNat
      else .next (advance { s with mem := memSetBytes s.mem s.i.toNat (valuesUpTo s x) }) := by
  have hlen := length_valuesUpTo s x
  have hpos : valuesUpTo s x ≠ [] := List.ne_nil_of_length_pos (by omega)
  rw [execStoreRegs, storeAtI_eq _ _ _ hpos (by omega), hlen]
  have : s.i.toNat + (x.val + 1) > 0x1000 ↔ s.i.toNat + x.val > 0xFFF := by omega
  simp only [this]

theorem execLdBVx_eq (x : Reg) (s : State) :
    execLdBVx x s =
      if s.i.toNat + 2 > 0xFFF then raise s .addressOutOfRange (.ldBVx x) (max s.i.toNat 0x1000)
      else if s.i.toNat < 0x200 then raise s .writeProtected (.ldBVx x) s.i.toNat
      else .next (advance { s with mem := memSetBytes s.mem s.i.toNat (decimalDigits (getV s x)) }) := by
  have hlen : (decimalDigits (getV s x)).length = 3 := rfl
  have hpos : decimalDigits (getV s x) ≠ [] := List.cons_ne_nil _ _
  rw [execLdBVx, storeAtI_eq _ _ _ hpos (by omega), hlen]
  have : s.i.toNat + 3 > 0x1000 ↔ s.i.toNat + 2 > 0xFFF := by omega
  simp only [this]

theorem execLoadRegs_eq (x : Reg) (s : State) :
    execLoadRegs x s =
      if s.i.toNat + x.val > 0xFFF then raise s .addressOutOfRange (.loadRegs x) (max s.i.toNat 0x1000)
      else .next (advance (setVs s ((List.range (x.val + 1)).map fun k => memGet s.mem (s.i.toNat + k)))) := by
  unfold execLoadRegs
  rw [loadBytes_eq]
  by_cases h : s.i.toNat + x.val > 0xFFF
  · rw [if_pos h, if_neg (by omega)]
  · rw [if_neg h, if_pos (by omega)]

end Sys2Proof.Machine
end

