-- ==== Sys2Proof/Laws/Display.lean ====
section
/-! SUPPORT. The compositor in closed form: a pixel is inverted exactly when a 1 bit of the sprite lands on it, and the
collision is that one of those pixels was on (44_display.md R165). -/

namespace Sys2Proof.Machine

open Sys2Proof.Safety

/-! ## Pixels -/

theorem framebuffer_ext {f g : Framebuffer} (h : ∀ (x : Fin 64) (y : Fin 32), pixelAt f x y = pixelAt g x y) : f = g := by
  apply Vector.ext
  intro j hj
  apply Vector.ext
  intro k hk
  exact h ⟨k, hk⟩ ⟨j, hj⟩

theorem pixelAt_flipPixel (f : Framebuffer) (x px : Fin 64) (y py : Fin 32) :
    pixelAt (flipPixel f x y) px py = if px = x ∧ py = y then !pixelAt f px py else pixelAt f px py := by
  unfold pixelAt flipPixel
  by_cases hy : py = y
  · subst hy
    by_cases hx : px = x
    · subst hx
      simp
    · have : x.val ≠ px.val := fun e => hx (Fin.ext e.symm)
      simp [hx, this]
  · have : y.val ≠ py.val := fun e => hy (Fin.ext e.symm)
    simp [hy, this]

@[simp] theorem pixelAt_blankScreen (px : Fin 64) (py : Fin 32) : pixelAt blankScreen px py = false := by
  simp [pixelAt, blankScreen]

/-! ## A set of pixels inverted -/

/-- The canvas `d` is `c` with the pixels of `p` inverted, its collision telling whether one of them was on. -/
structure Inverts (p : Fin 64 → Fin 32 → Prop) (c d : Canvas) : Prop where
  /-- A pixel of `p` is inverted. -/
  hit : ∀ px py, p px py → pixelAt d.fb px py = !pixelAt c.fb px py
  /-- Every other pixel stays. -/
  miss : ∀ px py, ¬ p px py → pixelAt d.fb px py = pixelAt c.fb px py
  /-- The collision. -/
  collision : d.collision = true ↔ c.collision = true ∨ ∃ px py, p px py ∧ pixelAt c.fb px py = true

theorem Inverts.congr {p q : Fin 64 → Fin 32 → Prop} {c d : Canvas} (h : Inverts p c d) (e : ∀ px py, p px py ↔ q px py) :
    Inverts q c d := by
  have : p = q := funext fun px => funext fun py => propext (e px py)
  exact this ▸ h

theorem inverts_none (c : Canvas) : Inverts (fun _ _ => False) c c :=
  ⟨fun _ _ h => h.elim, fun _ _ _ => rfl, by simp⟩

theorem inverts_plot (c : Canvas) (x : Fin 64) (y : Fin 32) : Inverts (fun px py => px = x ∧ py = y) c (plot c x y) := by
  refine ⟨fun px py h => ?_, fun px py h => ?_, ?_⟩
  · simp only [plot, pixelAt_flipPixel, if_pos h]
  · simp only [plot, pixelAt_flipPixel, if_neg h]
  · simp [plot]

/-- Two disjoint sets inverted one after the other are their union inverted. -/
theorem Inverts.trans {p q : Fin 64 → Fin 32 → Prop} {c d e : Canvas} (h : Inverts p c d) (k : Inverts q d e)
    (disjoint : ∀ px py, p px py → ¬ q px py) : Inverts (fun px py => p px py ∨ q px py) c e := by
  refine ⟨fun px py hpq => ?_, fun px py hpq => ?_, ?_⟩
  · rcases hpq with hp | hq
    · rw [k.miss px py (disjoint px py hp), h.hit px py hp]
    · rw [k.hit px py hq, h.miss px py fun hp => disjoint px py hp hq]
  · rw [not_or] at hpq
    rw [k.miss px py hpq.2, h.miss px py hpq.1]
  · rw [k.collision, h.collision, or_assoc]
    refine or_congr_right ⟨?_, ?_⟩
    · rintro (⟨px, py, hp, ho⟩ | ⟨px, py, hq, ho⟩)
      · exact ⟨px, py, .inl hp, ho⟩
      · exact ⟨px, py, .inr hq, by rwa [← h.miss px py fun hp => disjoint px py hp hq]⟩
    · rintro ⟨px, py, hp | hq, ho⟩
      · exact .inl ⟨px, py, hp, ho⟩
      · exact .inr ⟨px, py, hq, by rwa [h.miss px py fun hp => disjoint px py hp hq]⟩

/-! ## Bits, rows, sprites -/

theorem inverts_drawBit (b : Byte) (cx cy : Nat) (c : Canvas) (k : Nat) :
    Inverts (fun px py => spriteBit b k = true ∧ px.val = (cx + k) % 64 ∧ py.val = cy % 32) c (drawBit b cx cy c k) := by
  unfold drawBit
  split
  · rename_i h
    refine (inverts_plot c _ _).congr fun px py => ?_
    simp [h, column, row, Fin.ext_iff]
  · rename_i h
    exact (inverts_none c).congr fun px py => by simp [h]

/-- The first `n` bits of a row, `n` at most 8: eight neighbouring columns are eight columns. -/
theorem inverts_drawBits (b : Byte) (cx cy : Nat) (c : Canvas) (n : Nat) (hn : n ≤ 8) :
    Inverts (fun px py => ∃ k < n, spriteBit b k = true ∧ px.val = (cx + k) % 64 ∧ py.val = cy % 32) c
      ((List.range n).foldl (drawBit b cx cy) c) := by
  induction n with
  | zero => exact (inverts_none c).congr fun px py => by simp
  | succ n ih =>
    rw [List.range_succ, List.foldl_append]
    refine ((ih (by omega)).trans (inverts_drawBit b cx cy _ n) ?_).congr fun px py => ?_
    · rintro px py ⟨k, hk, -, hx, -⟩ ⟨-, hx', -⟩
      omega
    · constructor
      · rintro (⟨k, hk, h⟩ | h)
        · exact ⟨k, by omega, h⟩
        · exact ⟨n, by omega, h⟩
      · rintro ⟨k, hk, h⟩
        rcases Nat.lt_succ_iff_lt_or_eq.mp hk with hk | rfl
        · exact .inl ⟨k, hk, h⟩
        · exact .inr h

/-- A sprite of at most 32 rows: its rows are as many rows of the screen. -/
theorem inverts_drawSprite (bs : List Byte) (cx cy : Nat) (c : Canvas) (hn : bs.length ≤ 32) :
    Inverts (fun px py => ∃ r < bs.length, ∃ k < 8, spriteBit (bs.getD r 0) k = true ∧
      px.val = (cx + k) % 64 ∧ py.val = (cy + r) % 32) c (drawSprite bs cx cy c) := by
  induction bs generalizing cy c with
  | nil => exact (inverts_none c).congr fun px py => by simp
  | cons b bs ih =>
    simp only [List.length_cons] at hn ⊢
    refine ((inverts_drawBits b cx cy c 8 (Nat.le_refl 8)).trans (ih (cy + 1) _ (by omega)) ?_).congr fun px py => ?_
    · rintro px py ⟨k, -, -, -, hy⟩ ⟨r, hr, k', -, -, -, hy'⟩
      omega
    · constructor
      · rintro (⟨k, hk, h1, h2, h3⟩ | ⟨r, hr, k, hk, h1, h2, h3⟩)
        · exact ⟨0, by omega, k, hk, by simpa using h1, h2, by simpa using h3⟩
        · exact ⟨r + 1, by omega, k, hk, by simpa using h1, h2, by rw [h3]; congr 1; omega⟩
      · rintro ⟨r, hr, k, hk, h1, h2, h3⟩
        cases r with
        | zero => exact .inl ⟨k, hk, by simpa using h1, h2, by simpa using h3⟩
        | succ r => exact .inr ⟨r, by omega, k, hk, by simpa using h1, h2, by rw [h3]; congr 1; omega⟩

/-! ## DRW -/

/-- The canvas after a sprite of `n` rows at `base` is drawn over `fb`. -/
def drawn (m : Memory) (base n cx cy : Nat) (fb : Framebuffer) : Canvas :=
  drawSprite ((List.range n).map fun k => memGet m (base + k)) cx cy { fb := fb, collision := false }

theorem inverts_drawn (m : Memory) (base n cx cy : Nat) (fb : Framebuffer) (hn : n ≤ 32) :
    Inverts (SpriteHits m base n cx cy) { fb := fb, collision := false } (drawn m base n cx cy fb) := by
  refine (inverts_drawSprite _ cx cy _ (by simpa using hn)).congr fun px py => ?_
  simp only [List.length_map, List.length_range, SpriteHits]
  refine exists_congr fun r => and_congr_right fun hr => ?_
  simp [spriteBit, hr]

/-- Everything DRW can answer. -/
theorem execDrw_eq (x y : Reg) (n : BitVec 4) (s : State) :
    execDrw x y n s =
      if InRange s.i.toNat n.toNat then
        let c := drawn s.mem s.i.toNat n.toNat (getV s x).toNat (getV s y).toNat s.fb
        .next (advance (setFlag { s with fb := c.fb } c.collision))
      else raise s .addressOutOfRange (.drw x y n) (max s.i.toNat 0x1000) := by
  unfold execDrw InRange
  rw [loadBytes_eq]
  split_ifs <;> rfl

end Sys2Proof.Machine
end

