-- ==== Sys2Proof/Laws/Encoding.lean ====
section
/-! SUPPORT. The fields and formats of 30_encoding.md R81 as numbers; what each field reads from a word that a format
builds, and that a format built from a word's fields is the word. -/

namespace Sys2Proof

@[simp] theorem toNat_nibbleOfReg (r : Reg) : (nibbleOfReg r).toNat = r.val := by
  simp [nibbleOfReg]

/-! ## Fields as numbers -/

theorem toNat_fieldOp (w : Word) : (fieldOp w).toNat = w.toNat / 0x1000 := by
  have := w.isLt
  simp only [fieldOp, BitVec.extractLsb'_toNat, Nat.shiftRight_eq_div_pow]
  omega

theorem val_fieldX (w : Word) : (fieldX w).val = w.toNat / 0x100 % 0x10 := by
  simp only [fieldX, regOfNibble, BitVec.extractLsb'_toNat, Nat.shiftRight_eq_div_pow]

theorem val_fieldY (w : Word) : (fieldY w).val = w.toNat / 0x10 % 0x10 := by
  simp only [fieldY, regOfNibble, BitVec.extractLsb'_toNat, Nat.shiftRight_eq_div_pow]

theorem toNat_fieldN (w : Word) : (fieldN w).toNat = w.toNat % 0x10 := by
  simp [fieldN, BitVec.extractLsb'_toNat]

theorem toNat_fieldNN (w : Word) : (fieldNN w).toNat = w.toNat % 0x100 := by
  simp [fieldNN, BitVec.extractLsb'_toNat]

theorem toNat_fieldNNN (w : Word) : (fieldNNN w).toNat = w.toNat % 0x1000 := by
  simp [fieldNNN, BitVec.extractLsb'_toNat]

/-! ## Formats as numbers -/

/-- An append is a sum: the high part scaled, and the low part. -/
theorem toNat_append_eq {n m : Nat} (a : BitVec n) (b : BitVec m) :
    (a ++ b).toNat = a.toNat * 2 ^ m + b.toNat := by
  rw [BitVec.toNat_append, ← Nat.shiftLeft_add_eq_or_of_lt b.isLt, Nat.shiftLeft_eq]

theorem toNat_formatNNN (op : BitVec 4) (nnn : BitVec 12) :
    (formatNNN op nnn).toNat = op.toNat * 0x1000 + nnn.toNat := toNat_append_eq op nnn

theorem toNat_formatXNN (op : BitVec 4) (x : Reg) (nn : Byte) :
    (formatXNN op x nn).toNat = op.toNat * 0x1000 + x.val * 0x100 + nn.toNat := by
  have h1 : (formatXNN op x nn).toNat = (op ++ nibbleOfReg x).toNat * 2 ^ 8 + nn.toNat := toNat_append_eq _ nn
  rw [h1, toNat_append_eq, toNat_nibbleOfReg]
  ring

theorem toNat_formatXYN (op : BitVec 4) (x y : Reg) (n : BitVec 4) :
    (formatXYN op x y n).toNat = op.toNat * 0x1000 + x.val * 0x100 + y.val * 0x10 + n.toNat := by
  have h1 : (formatXYN op x y n).toNat = (op ++ nibbleOfReg x ++ nibbleOfReg y).toNat * 2 ^ 4 + n.toNat :=
    toNat_append_eq _ n
  rw [h1, toNat_append_eq, toNat_append_eq, toNat_nibbleOfReg, toNat_nibbleOfReg]
  ring

theorem toNat_wordOfBytes (hi lo : Byte) : (wordOfBytes hi lo).toNat = hi.toNat * 256 + lo.toNat :=
  toNat_append_eq hi lo

/-! ## Fields of formats -/

@[simp] theorem fieldOp_formatNNN (op : BitVec 4) (nnn : BitVec 12) : fieldOp (formatNNN op nnn) = op := by
  apply BitVec.eq_of_toNat_eq
  rw [toNat_fieldOp, toNat_formatNNN]
  omega

@[simp] theorem fieldNNN_formatNNN (op : BitVec 4) (nnn : BitVec 12) : fieldNNN (formatNNN op nnn) = nnn := by
  apply BitVec.eq_of_toNat_eq
  rw [toNat_fieldNNN, toNat_formatNNN]
  omega

@[simp] theorem fieldOp_formatXNN (op : BitVec 4) (x : Reg) (nn : Byte) : fieldOp (formatXNN op x nn) = op := by
  apply BitVec.eq_of_toNat_eq
  rw [toNat_fieldOp, toNat_formatXNN]
  omega

@[simp] theorem fieldX_formatXNN (op : BitVec 4) (x : Reg) (nn : Byte) : fieldX (formatXNN op x nn) = x := by
  apply Fin.ext
  rw [val_fieldX, toNat_formatXNN]
  omega

@[simp] theorem fieldNN_formatXNN (op : BitVec 4) (x : Reg) (nn : Byte) : fieldNN (formatXNN op x nn) = nn := by
  apply BitVec.eq_of_toNat_eq
  rw [toNat_fieldNN, toNat_formatXNN]
  omega

@[simp] theorem fieldOp_formatXYN (op : BitVec 4) (x y : Reg) (n : BitVec 4) :
    fieldOp (formatXYN op x y n) = op := by
  apply BitVec.eq_of_toNat_eq
  rw [toNat_fieldOp, toNat_formatXYN]
  omega

@[simp] theorem fieldX_formatXYN (op : BitVec 4) (x y : Reg) (n : BitVec 4) : fieldX (formatXYN op x y n) = x := by
  apply Fin.ext
  rw [val_fieldX, toNat_formatXYN]
  omega

@[simp] theorem fieldY_formatXYN (op : BitVec 4) (x y : Reg) (n : BitVec 4) : fieldY (formatXYN op x y n) = y := by
  apply Fin.ext
  rw [val_fieldY, toNat_formatXYN]
  omega

@[simp] theorem fieldN_formatXYN (op : BitVec 4) (x y : Reg) (n : BitVec 4) : fieldN (formatXYN op x y n) = n := by
  apply BitVec.eq_of_toNat_eq
  rw [toNat_fieldN, toNat_formatXYN]
  omega

/-! ## Formats of fields -/

theorem formatNNN_fields (w : Word) : formatNNN (fieldOp w) (fieldNNN w) = w := by
  apply BitVec.eq_of_toNat_eq
  rw [toNat_formatNNN, toNat_fieldOp, toNat_fieldNNN]
  omega

theorem formatXNN_fields (w : Word) : formatXNN (fieldOp w) (fieldX w) (fieldNN w) = w := by
  apply BitVec.eq_of_toNat_eq
  rw [toNat_formatXNN, toNat_fieldOp, val_fieldX, toNat_fieldNN]
  omega

theorem formatXYN_fields (w : Word) : formatXYN (fieldOp w) (fieldX w) (fieldY w) (fieldN w) = w := by
  apply BitVec.eq_of_toNat_eq
  rw [toNat_formatXYN, toNat_fieldOp, val_fieldX, val_fieldY, toNat_fieldN]
  omega

/-! ## Bytes of a word -/

theorem toNat_highByte (w : Word) : (highByte w).toNat = w.toNat / 256 := by
  have := w.isLt
  simp only [highByte, BitVec.extractLsb'_toNat, Nat.shiftRight_eq_div_pow]
  omega

theorem toNat_lowByte (w : Word) : (lowByte w).toNat = w.toNat % 256 := by
  simp [lowByte, BitVec.extractLsb'_toNat]

@[simp] theorem wordOfBytes_highByte_lowByte (w : Word) : wordOfBytes (highByte w) (lowByte w) = w := by
  apply BitVec.eq_of_toNat_eq
  rw [toNat_wordOfBytes, toNat_highByte, toNat_lowByte]
  omega

/-- The byte decoder on two bytes or more is the word decoder. -/
theorem decode_cons_cons (hi lo : Byte) (rest : List Byte) :
    decode (hi :: lo :: rest) = (decodeWord (wordOfBytes hi lo)).map fun i => (i, rest) := by
  cases h : decodeWord (wordOfBytes hi lo) <;> simp [decode, h, Except.map]

/-- `decodeTableWord` is the word decoder on the table's word. -/
theorem decodeTableWord_eq (nbits w : Nat) :
    decodeTableWord nbits w = (decodeWord (tableWord nbits w)).toOption := by
  unfold decodeTableWord
  rw [decode_cons_cons, wordOfBytes_highByte_lowByte]
  cases decodeWord (tableWord nbits w) <;> rfl

end Sys2Proof
end

