-- ==== Sys2Proof/Laws/Stack.lean ====
section
/-! SUPPORT. What the stack instructions can answer, by the number of return addresses on the stack. -/

namespace Sys2Proof.Machine

/-- `pop` of a stack that is not empty: the youngest return address, and the stack pointer one less. -/
theorem pop_of_pos (s : State) (h : 0 < s.sp.val) :
    pop s = some (s.stack[s.sp.val - 1], { s with sp := ⟨s.sp.val - 1, by omega⟩ }) := by
  unfold pop
  split
  · rename_i hsp
    rw [hsp] at h
    exact absurd h (Nat.lt_irrefl 0)
  · rename_i k hk hsp
    simp [hsp]

theorem pop_of_zero (s : State) (h : s.sp.val = 0) : pop s = none := by
  unfold pop
  split
  · rfl
  · rename_i k hk hsp
    rw [hsp] at h
    exact absurd h (Nat.succ_ne_zero k)

/-- Everything RET can answer. -/
theorem execRet_eq (s : State) :
    execRet s =
      if h : 0 < s.sp.val then .next { s with pc := s.stack[s.sp.val - 1], sp := ⟨s.sp.val - 1, by omega⟩ }
      else raise s .stackUnderflow .ret 0 := by
  unfold execRet
  split_ifs with h
  · rw [pop_of_pos s h]
    rfl
  · rw [pop_of_zero s (by omega)]

/-- Everything CALL can answer. -/
theorem execCall_eq (nnn : BitVec 12) (s : State) :
    execCall nnn s =
      if h : s.sp.val < 16 then
        .next { s with
          stack := s.stack.set s.sp.val (npc s)
          sp := ⟨s.sp.val + 1, Nat.succ_lt_succ h⟩
          pc := addressOf nnn }
      else raise s .stackOverflow (.call nnn) 0 := by
  unfold execCall push
  split_ifs <;> rfl

end Sys2Proof.Machine
end

