-- ==== Sys2Proof/Laws/Exec.lean ====
section
/-! SUPPORT. What an instruction can do, said once: it answers a next state, which is a fault entry for a reason of its
own, or leaves the status, the fault record and everything of the host alone. -/

namespace Sys2Proof.Machine

/-- Why an instruction faults (60_exceptions.md R203, R207). -/
def Raises (i : Instr) (s : State) (c : Cause) : Prop :=
  match i with
  | .sys _ => c = .unknownInstruction
  | .ret => s.sp = 0 ∧ c = .stackUnderflow
  | .call _ => s.sp = 16 ∧ c = .stackOverflow
  | .drw _ _ n => ¬ Safety.InRange s.i.toNat n.toNat ∧ c = .addressOutOfRange
  | .loadRegs x => s.i.toNat + x.val > 0xFFF ∧ c = .addressOutOfRange
  | .storeRegs x =>
    (s.i.toNat + x.val > 0xFFF ∧ c = .addressOutOfRange) ∨ (s.i.toNat < 0x200 ∧ c = .writeProtected)
  | .ldBVx _ => (s.i.toNat + 2 > 0xFFF ∧ c = .addressOutOfRange) ∨ (s.i.toNat < 0x200 ∧ c = .writeProtected)
  | _ => False

/-- What an instruction that does not fault leaves alone. -/
structure Completes (i : Instr) (s t : State) : Prop where
  /-- The status changes for the key wait only. -/
  status : t.status = s.status ∨ ∃ x : Reg, i = .ldVxK x ∧ t.status = .awaitKey x
  /-- The fault record stays. -/
  record : t.record = s.record
  /-- The key latch stays. -/
  key : t.key = s.key
  /-- The parameters stay. -/
  params : t.params = s.params
  /-- The host's operations stay. -/
  sched : t.sched = s.sched
  /-- How the host goes on stays. -/
  host : t.host = s.host
  /-- The count of the host's turns stays. -/
  turns : t.turns = s.turns
  /-- No instruction is a LoadProgram. -/
  loaded : t.loaded = s.loaded

/-- `exec` answers a next state for every instruction and state: a fault entry, or the instruction's effect. -/
theorem exec_cases (i : Instr) (s : State) :
    (∃ (c : Cause) (a : Nat), Raises i s c ∧ exec i s = .next (enterFault s c (encode i) a)) ∨
    (∃ t : State, exec i s = .next t ∧ Completes i s t) := by
  cases i with
  | sys nnn => exact .inl ⟨_, _, rfl, rfl⟩
  | ret =>
    simp only [exec, execRet_eq]
    split_ifs with h
    · exact .inr ⟨_, rfl, .inl rfl, rfl, rfl, rfl, rfl, rfl, rfl, rfl⟩
    · exact .inl ⟨_, _, ⟨Fin.ext (by simpa using h), rfl⟩, rfl⟩
  | call nnn =>
    simp only [exec, execCall_eq]
    split_ifs with h
    · exact .inr ⟨_, rfl, .inl rfl, rfl, rfl, rfl, rfl, rfl, rfl, rfl⟩
    · exact .inl ⟨_, _, ⟨Fin.ext (by have := s.sp.isLt; simp; omega), rfl⟩, rfl⟩
  | drw x y n =>
    simp only [exec, execDrw_eq]
    split_ifs with h
    · exact .inr ⟨_, rfl, .inl rfl, rfl, rfl, rfl, rfl, rfl, rfl, rfl⟩
    · exact .inl ⟨.addressOutOfRange, max s.i.toNat 0x1000, ⟨h, rfl⟩, rfl⟩
  | loadRegs x =>
    simp only [exec, execLoadRegs_eq]
    split_ifs with h
    · exact .inl ⟨.addressOutOfRange, max s.i.toNat 0x1000, ⟨h, rfl⟩, rfl⟩
    · refine .inr ⟨_, rfl, .inl ?_, ?_, ?_, ?_, ?_, ?_, ?_, ?_⟩ <;> simp
  | storeRegs x =>
    simp only [exec, execStoreRegs_eq]
    split_ifs with h h'
    · exact .inl ⟨.addressOutOfRange, max s.i.toNat 0x1000, .inl ⟨h, rfl⟩, rfl⟩
    · exact .inl ⟨.writeProtected, s.i.toNat, .inr ⟨h', rfl⟩, rfl⟩
    · exact .inr ⟨_, rfl, .inl rfl, rfl, rfl, rfl, rfl, rfl, rfl, rfl⟩
  | ldBVx x =>
    simp only [exec, execLdBVx_eq]
    split_ifs with h h'
    · exact .inl ⟨.addressOutOfRange, max s.i.toNat 0x1000, .inl ⟨h, rfl⟩, rfl⟩
    · exact .inl ⟨.writeProtected, s.i.toNat, .inr ⟨h', rfl⟩, rfl⟩
    · exact .inr ⟨_, rfl, .inl rfl, rfl, rfl, rfl, rfl, rfl, rfl, rfl⟩
  | ldVxK x => exact .inr ⟨_, rfl, .inr ⟨x, rfl, rfl⟩, rfl, rfl, rfl, rfl, rfl, rfl, rfl⟩
  | _ => exact .inr ⟨_, rfl, .inl rfl, rfl, rfl, rfl, rfl, rfl, rfl, rfl⟩

/-- No instruction stops the machine. -/
theorem exec_next (i : Instr) (s : State) : ∃ t : State, exec i s = .next t := by
  rcases exec_cases i s with ⟨c, a, -, h⟩ | ⟨t, h, -⟩
  · exact ⟨_, h⟩
  · exact ⟨t, h⟩

/-- `exec_cases` for a state that `exec` answers. -/
theorem exec_inv {i : Instr} {s t : State} (h : exec i s = .next t) :
    (∃ (c : Cause) (a : Nat), Raises i s c ∧ t = enterFault s c (encode i) a) ∨ Completes i s t := by
  rcases exec_cases i s with ⟨c, a, hr, h'⟩ | ⟨t', h', hc⟩
  · rw [h'] at h
    exact .inl ⟨c, a, hr, by cases h; rfl⟩
  · rw [h'] at h
    cases h
    exact .inr hc

/-- What an instruction does to memory: nothing, or a block of bytes stored within program space. -/
theorem exec_mem {i : Instr} {s t : State} (h : exec i s = .next t) :
    t.mem = s.mem ∨ ∃ (a : Nat) (bs : List Byte), 0x200 ≤ a ∧ a + bs.length ≤ 0x1000 ∧ t.mem = memSetBytes s.mem a bs ∧
      ((∃ x : Reg, i = .storeRegs x) ∨ ∃ x : Reg, i = .ldBVx x) := by
  cases i with
  | storeRegs x =>
    simp only [exec, execStoreRegs_eq] at h
    split_ifs at h with h1 h2
    · cases h; exact .inl rfl
    · cases h; exact .inl rfl
    · cases h; exact .inr ⟨_, _, by omega, by rw [length_valuesUpTo]; omega, rfl, .inl ⟨_, rfl⟩⟩
  | ldBVx x =>
    simp only [exec, execLdBVx_eq] at h
    split_ifs at h with h1 h2
    · cases h; exact .inl rfl
    · cases h; exact .inl rfl
    · cases h; exact .inr ⟨_, _, by omega, by simp [decimalDigits]; omega, rfl, .inr ⟨_, rfl⟩⟩
  | loadRegs x =>
    simp only [exec, execLoadRegs_eq] at h
    split_ifs at h with h1
    · cases h; exact .inl rfl
    · cases h; exact .inl (by simp)
  | drw x y n =>
    simp only [exec, execDrw_eq] at h
    split_ifs at h with h1 <;> (cases h; exact .inl rfl)
  | ret =>
    simp only [exec, execRet_eq] at h
    split_ifs at h with h1 <;> (cases h; exact .inl rfl)
  | call nnn =>
    simp only [exec, execCall_eq] at h
    split_ifs at h with h1 <;> (cases h; exact .inl rfl)
  | _ => cases h; exact .inl rfl

/-- What a Cycle does: nothing when FAULTED, the poll in a key wait, else a fault entry or an instruction. -/
theorem cycle_cases {s t : State} (h : cycle s = .next t) :
    (s.status = .faulted ∧ t = s) ∨ (∃ x : Reg, s.status = .awaitKey x ∧ t = pollKey x s) ∨
    (s.status = .running ∧
      ((∃ (c : Cause) (w : Word) (a : Nat), c ≠ .programTooLarge ∧ t = enterFault s c w a) ∨
       ∃ (w : Word) (i : Instr), fetch s = .ok w ∧ decodeWord w = .ok i ∧ exec i s = .next t)) := by
  unfold cycle at h
  split at h
  · rename_i hs
    cases h
    exact .inl ⟨hs, rfl⟩
  · rename_i x hs
    cases h
    exact .inr (.inl ⟨x, hs, rfl⟩)
  · rename_i hs
    refine .inr (.inr ⟨hs, ?_⟩)
    unfold runInstruction at h
    split at h
    · cases h
      exact .inl ⟨_, _, _, by decide, rfl⟩
    · split at h
      · cases h
        exact .inl ⟨_, _, _, by decide, rfl⟩
      · exact .inr ⟨_, _, by assumption, by assumption, h⟩

end Sys2Proof.Machine
end

