-- ==== Sys2Proof/Laws/Host.lean ====
section
/-! SUPPORT. What the host's operations can answer: where a LoadProgram is defined and what it leaves. -/

namespace Sys2Proof.Machine

/-- A load is defined exactly in the states that differ from what Reset leaves in the latch alone. -/
theorem bootReady_iff {s : State} : bootReady s = true ↔ s = { resetOp s with key := s.key } := by
  unfold bootReady
  rw [decide_eq_true_eq]
  constructor <;> intro h
  · rw [← h]
  · rw [h]
    rfl

/-- A load that succeeds writes memory and nothing else. -/
theorem loadProgram_ok {bytes : List Byte} {s t : State} :
    loadProgram bytes s = .ok t ↔ bytes.length ≤ 3584 ∧ { s with mem := memSetBytes s.mem 0x200 bytes } = t := by
  unfold loadProgram
  split <;> simp <;> omega

/-- What a step that serves a LoadProgram can answer: the state as it was, or with the bytes in memory, and marked. -/
theorem serveLoad_next {bytes : List Byte} {s t : State} (h : serveLoad bytes s = .next t) :
    bootReady s = true ∧
      (t = markLoaded s ∨
        bytes.length ≤ 3584 ∧ t = markLoaded { s with mem := memSetBytes s.mem 0x200 bytes }) := by
  unfold serveLoad at h
  split at h
  · refine ⟨by assumption, ?_⟩
    split at h <;> cases h
    · rename_i hl
      exact .inr ⟨(loadProgram_ok.mp hl).1, by rw [(loadProgram_ok.mp hl).2]⟩
    · exact .inl rfl
  · cases h

/-- A load is served in no state in which a LoadProgram has been invoked since the last Reset. -/
theorem bootReady_of_loaded {s : State} (h : s.loaded = true) : bootReady s = false := by
  cases hb : bootReady s with
  | false => rfl
  | true =>
    rw [bootReady_iff] at hb
    rw [hb] at h
    cases h

end Sys2Proof.Machine
end

