-- ==== Sys2Proof/Laws/Input.lean ====
section
/-! SUPPORT. What the key poll finds (45_input.md R173). -/

namespace Sys2Proof.Machine

/-- The poll finds nothing exactly when no key is pressed. -/
theorem leastPressed_eq_none (s : State) : leastPressed s = none ↔ ∀ k : Key, s.key[k] = false := by
  simp [leastPressed, keyPressed, List.find?_eq_none]

/-- The poll finds the pressed key that has none below it. -/
theorem leastPressed_eq_some (s : State) (k : Key) :
    leastPressed s = some k ↔ s.key[k] = true ∧ ∀ j : Key, s.key[j] = true → k ≤ j := by
  unfold leastPressed
  rw [List.find?_eq_some_iff_getElem]
  simp only [keyPressed, List.length_finRange, List.getElem_finRange, Bool.not_eq_true']
  constructor
  · rintro ⟨hk, n, hn, rfl, hlow⟩
    refine ⟨hk, fun j hj => ?_⟩
    by_contra hlt
    have := hlow j.val (Nat.lt_of_not_le hlt)
    simp_all
  · rintro ⟨hk, hlow⟩
    refine ⟨hk, k.val, k.isLt, rfl, fun j hj => ?_⟩
    by_contra hne
    have := hlow ⟨j, by omega⟩ (by simpa using hne)
    exact absurd this (Nat.not_le.mpr hj)

/-- Everything the poll can do. -/
theorem pollKey_cases (x : Reg) (s : State) :
    (leastPressed s = none ∧ pollKey x s = s) ∨
    (∃ k : Key, leastPressed s = some k ∧
      pollKey x s = { setV s x (BitVec.ofNat 8 k.val) with status := .running }) := by
  unfold pollKey
  cases leastPressed s with
  | none => exact .inl ⟨rfl, rfl⟩
  | some k => exact .inr ⟨k, rfl, rfl⟩

end Sys2Proof.Machine
end

