-- ==== Sys2Proof/Laws/PerInstr.lean ====
section
/-! SUPPORT. The family SelectsItsRow of statements about every instruction: its word carries the selecting bits that
30_encoding.md R83 and R84 give its row, whatever its operands. -/

namespace Sys2Proof.Laws.SelectsItsRow

/-- What selects a row (30_encoding.md R84): the leading nibble, and the last nibble or the last byte where the row fixes
it. -/
structure Selector where
  /-- `insn[15:12]`. -/
  op : BitVec 4
  /-- `insn[3:0]`, where it selects. -/
  last4 : Option (BitVec 4)
  /-- `insn[7:0]`, where it selects. -/
  last8 : Option Byte

/-- The selectors of the rows of 30_encoding.md R83. -/
def selector : Instr → Selector
  | .cls => ⟨0x0#4, none, some 0xE0#8⟩
  | .ret => ⟨0x0#4, none, some 0xEE#8⟩
  | .sys _ => ⟨0x0#4, none, none⟩
  | .jp _ => ⟨0x1#4, none, none⟩
  | .call _ => ⟨0x2#4, none, none⟩
  | .seImm _ _ => ⟨0x3#4, none, none⟩
  | .sneImm _ _ => ⟨0x4#4, none, none⟩
  | .seReg _ _ => ⟨0x5#4, some 0x0#4, none⟩
  | .ldImm _ _ => ⟨0x6#4, none, none⟩
  | .addImm _ _ => ⟨0x7#4, none, none⟩
  | .ldReg _ _ => ⟨0x8#4, some 0x0#4, none⟩
  | .orReg _ _ => ⟨0x8#4, some 0x1#4, none⟩
  | .andReg _ _ => ⟨0x8#4, some 0x2#4, none⟩
  | .xorReg _ _ => ⟨0x8#4, some 0x3#4, none⟩
  | .addReg _ _ => ⟨0x8#4, some 0x4#4, none⟩
  | .subReg _ _ => ⟨0x8#4, some 0x5#4, none⟩
  | .shr _ _ => ⟨0x8#4, some 0x6#4, none⟩
  | .subn _ _ => ⟨0x8#4, some 0x7#4, none⟩
  | .shl _ _ => ⟨0x8#4, some 0xE#4, none⟩
  | .sneReg _ _ => ⟨0x9#4, some 0x0#4, none⟩
  | .ldI _ => ⟨0xA#4, none, none⟩
  | .jpV0 _ => ⟨0xB#4, none, none⟩
  | .rnd _ _ => ⟨0xC#4, none, none⟩
  | .drw _ _ _ => ⟨0xD#4, none, none⟩
  | .skp _ => ⟨0xE#4, none, some 0x9E#8⟩
  | .sknp _ => ⟨0xE#4, none, some 0xA1#8⟩
  | .ldVxDT _ => ⟨0xF#4, none, some 0x07#8⟩
  | .ldVxK _ => ⟨0xF#4, none, some 0x0A#8⟩
  | .ldDTVx _ => ⟨0xF#4, none, some 0x15#8⟩
  | .ldSTVx _ => ⟨0xF#4, none, some 0x18#8⟩
  | .addIVx _ => ⟨0xF#4, none, some 0x1E#8⟩
  | .ldFVx _ => ⟨0xF#4, none, some 0x29#8⟩
  | .ldBVx _ => ⟨0xF#4, none, some 0x33#8⟩
  | .storeRegs _ => ⟨0xF#4, none, some 0x55#8⟩
  | .loadRegs _ => ⟨0xF#4, none, some 0x65#8⟩

/-- The word of `i` has the selecting bits of its row. -/
def Statement (i : Instr) : Prop :=
  fieldOp (encode i) = (selector i).op ∧ (∀ k, (selector i).last4 = some k → fieldN (encode i) = k) ∧
    ∀ b, (selector i).last8 = some b → fieldNN (encode i) = b

theorem cls : Statement .cls := by
  refine ⟨by decide, ?_, ?_⟩ <;> simp [selector, encode]; decide

theorem ret : Statement .ret := by
  refine ⟨by decide, ?_, ?_⟩ <;> simp [selector, encode]; decide

theorem sys (nnn : BitVec 12) : Statement (.sys nnn) := by
  simp [Statement, selector, encode]

theorem jp (nnn : BitVec 12) : Statement (.jp nnn) := by
  simp [Statement, selector, encode]

theorem call (nnn : BitVec 12) : Statement (.call nnn) := by
  simp [Statement, selector, encode]

theorem seImm (x : Reg) (nn : Byte) : Statement (.seImm x nn) := by
  simp [Statement, selector, encode]

theorem sneImm (x : Reg) (nn : Byte) : Statement (.sneImm x nn) := by
  simp [Statement, selector, encode]

theorem seReg (x : Reg) (y : Reg) : Statement (.seReg x y) := by
  simp [Statement, selector, encode]

theorem ldImm (x : Reg) (nn : Byte) : Statement (.ldImm x nn) := by
  simp [Statement, selector, encode]

theorem addImm (x : Reg) (nn : Byte) : Statement (.addImm x nn) := by
  simp [Statement, selector, encode]

theorem ldReg (x : Reg) (y : Reg) : Statement (.ldReg x y) := by
  simp [Statement, selector, encode]

theorem orReg (x : Reg) (y : Reg) : Statement (.orReg x y) := by
  simp [Statement, selector, encode]

theorem andReg (x : Reg) (y : Reg) : Statement (.andReg x y) := by
  simp [Statement, selector, encode]

theorem xorReg (x : Reg) (y : Reg) : Statement (.xorReg x y) := by
  simp [Statement, selector, encode]

theorem addReg (x : Reg) (y : Reg) : Statement (.addReg x y) := by
  simp [Statement, selector, encode]

theorem subReg (x : Reg) (y : Reg) : Statement (.subReg x y) := by
  simp [Statement, selector, encode]

theorem shr (x : Reg) (y : Reg) : Statement (.shr x y) := by
  simp [Statement, selector, encode]

theorem subn (x : Reg) (y : Reg) : Statement (.subn x y) := by
  simp [Statement, selector, encode]

theorem shl (x : Reg) (y : Reg) : Statement (.shl x y) := by
  simp [Statement, selector, encode]

theorem sneReg (x : Reg) (y : Reg) : Statement (.sneReg x y) := by
  simp [Statement, selector, encode]

theorem ldI (nnn : BitVec 12) : Statement (.ldI nnn) := by
  simp [Statement, selector, encode]

theorem jpV0 (nnn : BitVec 12) : Statement (.jpV0 nnn) := by
  simp [Statement, selector, encode]

theorem rnd (x : Reg) (nn : Byte) : Statement (.rnd x nn) := by
  simp [Statement, selector, encode]

theorem drw (x : Reg) (y : Reg) (n : BitVec 4) : Statement (.drw x y n) := by
  simp [Statement, selector, encode]

theorem skp (x : Reg) : Statement (.skp x) := by
  simp [Statement, selector, encode]

theorem sknp (x : Reg) : Statement (.sknp x) := by
  simp [Statement, selector, encode]

theorem ldVxDT (x : Reg) : Statement (.ldVxDT x) := by
  simp [Statement, selector, encode]

theorem ldVxK (x : Reg) : Statement (.ldVxK x) := by
  simp [Statement, selector, encode]

theorem ldDTVx (x : Reg) : Statement (.ldDTVx x) := by
  simp [Statement, selector, encode]

theorem ldSTVx (x : Reg) : Statement (.ldSTVx x) := by
  simp [Statement, selector, encode]

theorem addIVx (x : Reg) : Statement (.addIVx x) := by
  simp [Statement, selector, encode]

theorem ldFVx (x : Reg) : Statement (.ldFVx x) := by
  simp [Statement, selector, encode]

theorem ldBVx (x : Reg) : Statement (.ldBVx x) := by
  simp [Statement, selector, encode]

theorem storeRegs (x : Reg) : Statement (.storeRegs x) := by
  simp [Statement, selector, encode]

theorem loadRegs (x : Reg) : Statement (.loadRegs x) := by
  simp [Statement, selector, encode]

end Sys2Proof.Laws.SelectsItsRow
end

