-- ==== Sys2Proof/Laws/Registers.lean ====
section
/-! SUPPORT. Reads of registers after writes, and the frame of an instruction that writes one register, or one register
and the flag. -/

namespace Sys2Proof.Machine

open Sys2Proof.Safety

@[simp] theorem getV_setV_self (s : State) (r : Reg) (b : Byte) : getV (setV s r b) r = b := by simp [getV]

theorem getV_setV_of_ne (s : State) {x r : Reg} (b : Byte) (h : r ≠ x) : getV (setV s x b) r = getV s r := by
  have : x.val ≠ r.val := fun e => h (Fin.ext e.symm)
  simp [getV, this]

/-- A register of a block that is loaded is its byte, if the block has one for it. -/
theorem getV_setVs (s : State) (bs : List Byte) (r : Reg) : getV (setVs s bs) r = bs.getD r.val (getV s r) := by
  simp [getV]

theorem getV_congr {s t : State} (h : t.v = s.v) (r : Reg) : getV t r = getV s r := by
  simp [getV, h]

@[simp] theorem getV_advance (s : State) (r : Reg) : getV (advance s) r = getV s r := rfl

/-- The flag is what remains in VF (41_arith_logic.md R120). -/
@[simp] theorem getV_setResultAndFlag_vf (s : State) (x : Reg) (b : Byte) (f : Bool) :
    getV (setResultAndFlag s x b f) 15 = flagByte f := by
  simp [getV, regVF]

theorem getV_setResultAndFlag_dst (s : State) {x : Reg} (b : Byte) (f : Bool) (h : x ≠ 15) :
    getV (setResultAndFlag s x b f) x = b := by
  rw [setResultAndFlag, setFlag, getV_setV_of_ne _ _ (show x ≠ regVF from h), getV_setV_self]

theorem getV_setResultAndFlag_of_ne (s : State) {x r : Reg} (b : Byte) (f : Bool) (hx : r ≠ x) (hf : r ≠ 15) :
    getV (setResultAndFlag s x b f) r = getV s r := by
  rw [setResultAndFlag, setFlag, getV_setV_of_ne _ _ (show r ≠ regVF from hf), getV_setV_of_ne _ _ hx]

/-- What an instruction that writes one register and goes on leaves alone. -/
theorem registersOnly_setV (s : State) (x : Reg) (b : Byte) :
    RegistersOnly [x] (s.pc + 2#16) s (advance (setV s x b)) := by
  refine ⟨rfl, fun r hr => ?_, fun _ => rfl, rfl⟩
  rw [getV_advance, getV_setV_of_ne]
  simpa using hr

/-- What an instruction that writes one register and the flag and goes on leaves alone. -/
theorem registersOnly_setResultAndFlag (s : State) (x : Reg) (b : Byte) (f : Bool) :
    RegistersOnly [x, 15] (s.pc + 2#16) s (advance (setResultAndFlag s x b f)) := by
  refine ⟨rfl, fun r hr => ?_, fun _ => rfl, rfl⟩
  simp only [List.mem_cons, List.not_mem_nil, or_false, not_or] at hr
  rw [getV_advance, getV_setResultAndFlag_of_ne s b f hr.1 hr.2]

/-- What an instruction that loads a block of registers and goes on leaves alone, the registers apart. -/
theorem frame_setVs (s : State) (bs : List Byte) :
    (advance (setVs s bs)).pc = s.pc + 2#16 ∧ SameMemory s (advance (setVs s bs)) ∧
      advance (setVs s bs) = { s with v := (advance (setVs s bs)).v, pc := (advance (setVs s bs)).pc } := by
  refine ⟨?_, fun _ => ?_, ?_⟩ <;> rfl

/-- What DRW leaves alone of the registers, and the flag it writes. -/
theorem frame_drawn (s : State) (fb : Framebuffer) (f : Bool) :
    OnlyRegs [15] s (advance (setFlag { s with fb := fb } f)) ∧
      getV (advance (setFlag { s with fb := fb } f)) 15 = flagByte f := by
  refine ⟨fun r hr => ?_, by simp [getV, regVF]⟩
  have hne : r ≠ 15 := by simpa using hr
  rw [getV_advance, setFlag, getV_setV_of_ne _ _ (show r ≠ regVF from hne)]
  exact getV_congr rfl r

end Sys2Proof.Machine
end

