-- ==== Sys2Proof/Tests/Slice0.lean ====
section
/-! SUPPORT. Tests of one step or one operation, with expected results from spec/95_test_vectors.md (its identifiers stand
in the comments) or by hand from a rule of spec/, and, for every obligation with hypotheses, witnesses that meet them. -/

namespace Sys2Proof.Tests

open Sys2Proof.Machine Sys2Proof.Safety

/-! ## Helpers -/

/-- A field of the state after one step; none where the machine stops. -/
def after {α : Type} (s : State) (f : State → α) : Option α :=
  match step s with
  | .next t => some (f t)
  | .fault _ => none
  | .refused _ => none

/-- The reset state under a host that invokes Cycle and nothing else (log 5). -/
def ready : State := { State.reset with host := .cycleOnly }

/-- That state with a word at 0x200. -/
def prog (w : Word) : State := { ready with mem := memSetBytes [] 0x200 [highByte w, lowByte w] }

/-- A state with a register set. -/
def withV (r : Reg) (b : Byte) (s : State) : State := setV s r b

/-- A state with bytes of memory set. -/
def withMem (a : Nat) (bs : List Byte) (s : State) : State := { s with mem := memSetBytes s.mem a bs }

/-- A state with I set. -/
def withI (a : Word) (s : State) : State := { s with i := a }

/-- A state with a pixel flipped. -/
def withPixel (x : Fin 64) (y : Fin 32) (s : State) : State := { s with fb := flipPixel s.fb x y }

/-- The pixels of a row that are on. -/
def onIn (y : Fin 32) (s : State) : List (Fin 64) := (List.finRange 64).filter fun x => pixelAt s.fb x y

/-- A state that shifts V[y]. -/
def withVY (s : State) : State := { s with params := { shiftSource := .vy } }

/-- A state in which a fault is recorded: cause, fpc, finsn, faddr. -/
def faultOf (s : State) : Option (Option Cause × Word × Word × Nat) :=
  if s.status = .faulted then some (s.record.cause, s.record.fpc, s.record.finsn, s.record.faddr) else none

/-! ## WellFormed: SYS may not stand for the words of CLS and RET -/

theorem test_wellFormed_refuses_sys_cls : (Instr.sys 0x0E0#12).wellFormed = false ∧ sysIsNotCls 0x0E0#12 = false := by
  decide
theorem test_wellFormed_refuses_sys_ret : (Instr.sys 0x0EE#12).wellFormed = false ∧ sysIsNotRet 0x0EE#12 = false := by
  decide
theorem test_wellFormed_accepts_sys : (Instr.sys 0x0E1#12).wellFormed = true := by decide

/-! ## Decoding: one word for each row, written from 30_encoding.md R83 -/

theorem test_decode_cls : decodeWord 0x00E0#16 = .ok .cls ∧ encode .cls = 0x00E0#16 := by decide
theorem test_decode_ret : decodeWord 0x00EE#16 = .ok .ret ∧ encode .ret = 0x00EE#16 := by decide
theorem test_decode_sys : decodeWord 0x0123#16 = .ok (.sys 0x123#12) ∧ encode (.sys 0x123#12) = 0x0123#16 := by decide
theorem test_decode_jp : decodeWord 0x1234#16 = .ok (.jp 0x234#12) ∧ encode (.jp 0x234#12) = 0x1234#16 := by decide
theorem test_decode_call : decodeWord 0x2345#16 = .ok (.call 0x345#12) ∧ encode (.call 0x345#12) = 0x2345#16 := by decide
theorem test_decode_seImm : decodeWord 0x332A#16 = .ok (.seImm 3 0x2A#8) ∧ encode (.seImm 3 0x2A#8) = 0x332A#16 := by
  decide
theorem test_decode_sneImm : decodeWord 0x4BCD#16 = .ok (.sneImm 11 0xCD#8) ∧ encode (.sneImm 11 0xCD#8) = 0x4BCD#16 := by
  decide
theorem test_decode_seReg : decodeWord 0x5120#16 = .ok (.seReg 1 2) ∧ encode (.seReg 1 2) = 0x5120#16 := by decide
theorem test_decode_ldImm : decodeWord 0x6FAB#16 = .ok (.ldImm 15 0xAB#8) ∧ encode (.ldImm 15 0xAB#8) = 0x6FAB#16 := by
  decide
theorem test_decode_addImm : decodeWord 0x7201#16 = .ok (.addImm 2 0x01#8) ∧ encode (.addImm 2 0x01#8) = 0x7201#16 := by
  decide
theorem test_decode_ldReg : decodeWord 0x8120#16 = .ok (.ldReg 1 2) ∧ encode (.ldReg 1 2) = 0x8120#16 := by decide
theorem test_decode_orReg : decodeWord 0x8121#16 = .ok (.orReg 1 2) ∧ encode (.orReg 1 2) = 0x8121#16 := by decide
theorem test_decode_andReg : decodeWord 0x8122#16 = .ok (.andReg 1 2) ∧ encode (.andReg 1 2) = 0x8122#16 := by decide
theorem test_decode_xorReg : decodeWord 0x8123#16 = .ok (.xorReg 1 2) ∧ encode (.xorReg 1 2) = 0x8123#16 := by decide
theorem test_decode_addReg : decodeWord 0x8F14#16 = .ok (.addReg 15 1) ∧ encode (.addReg 15 1) = 0x8F14#16 := by decide
theorem test_decode_subReg : decodeWord 0x8125#16 = .ok (.subReg 1 2) ∧ encode (.subReg 1 2) = 0x8125#16 := by decide
theorem test_decode_shr : decodeWord 0x8126#16 = .ok (.shr 1 2) ∧ encode (.shr 1 2) = 0x8126#16 := by decide
theorem test_decode_subn : decodeWord 0x8127#16 = .ok (.subn 1 2) ∧ encode (.subn 1 2) = 0x8127#16 := by decide
theorem test_decode_shl : decodeWord 0x812E#16 = .ok (.shl 1 2) ∧ encode (.shl 1 2) = 0x812E#16 := by decide
theorem test_decode_sneReg : decodeWord 0x9120#16 = .ok (.sneReg 1 2) ∧ encode (.sneReg 1 2) = 0x9120#16 := by decide
theorem test_decode_ldI : decodeWord 0xA050#16 = .ok (.ldI 0x050#12) ∧ encode (.ldI 0x050#12) = 0xA050#16 := by decide
theorem test_decode_jpV0 : decodeWord 0xBFFF#16 = .ok (.jpV0 0xFFF#12) ∧ encode (.jpV0 0xFFF#12) = 0xBFFF#16 := by decide
theorem test_decode_rnd : decodeWord 0xC30F#16 = .ok (.rnd 3 0x0F#8) ∧ encode (.rnd 3 0x0F#8) = 0xC30F#16 := by decide
theorem test_decode_drw : decodeWord 0xDABC#16 = .ok (.drw 10 11 0xC#4) ∧ encode (.drw 10 11 0xC#4) = 0xDABC#16 := by
  decide
theorem test_decode_skp : decodeWord 0xE29E#16 = .ok (.skp 2) ∧ encode (.skp 2) = 0xE29E#16 := by decide
theorem test_decode_sknp : decodeWord 0xE2A1#16 = .ok (.sknp 2) ∧ encode (.sknp 2) = 0xE2A1#16 := by decide
theorem test_decode_ldVxDT : decodeWord 0xF507#16 = .ok (.ldVxDT 5) ∧ encode (.ldVxDT 5) = 0xF507#16 := by decide
theorem test_decode_ldVxK : decodeWord 0xF30A#16 = .ok (.ldVxK 3) ∧ encode (.ldVxK 3) = 0xF30A#16 := by decide
theorem test_decode_ldDTVx : decodeWord 0xF115#16 = .ok (.ldDTVx 1) ∧ encode (.ldDTVx 1) = 0xF115#16 := by decide
theorem test_decode_ldSTVx : decodeWord 0xF118#16 = .ok (.ldSTVx 1) ∧ encode (.ldSTVx 1) = 0xF118#16 := by decide
theorem test_decode_addIVx : decodeWord 0xF21E#16 = .ok (.addIVx 2) ∧ encode (.addIVx 2) = 0xF21E#16 := by decide
theorem test_decode_ldFVx : decodeWord 0xF429#16 = .ok (.ldFVx 4) ∧ encode (.ldFVx 4) = 0xF429#16 := by decide
theorem test_decode_ldBVx : decodeWord 0xF533#16 = .ok (.ldBVx 5) ∧ encode (.ldBVx 5) = 0xF533#16 := by decide
theorem test_decode_storeRegs : decodeWord 0xF255#16 = .ok (.storeRegs 2) ∧ encode (.storeRegs 2) = 0xF255#16 := by decide
theorem test_decode_loadRegs : decodeWord 0xF465#16 = .ok (.loadRegs 4) ∧ encode (.loadRegs 4) = 0xF465#16 := by decide

/-- EN6, EN7. -/
theorem test_decode_refuses_last_nibble :
    decodeWord 0x512F#16 = .error (.unknownInstruction 0x512F#16) ∧
    decodeWord 0x9121#16 = .error (.unknownInstruction 0x9121#16) := by decide
/-- EN8. -/
theorem test_decode_refuses_class8 :
    decodeWord 0x8128#16 = .error (.unknownInstruction 0x8128#16) ∧
    decodeWord 0x812D#16 = .error (.unknownInstruction 0x812D#16) ∧
    decodeWord 0x812F#16 = .error (.unknownInstruction 0x812F#16) := by decide
/-- EN9, EN10. -/
theorem test_decode_refuses_last_byte :
    decodeWord 0xE29F#16 = .error (.unknownInstruction 0xE29F#16) ∧
    decodeWord 0xF108#16 = .error (.unknownInstruction 0xF108#16) ∧
    decodeWord 0xF1FF#16 = .error (.unknownInstruction 0xF1FF#16) := by decide

/-- Too few bytes are refused by name, and bytes after an instruction are left (30_encoding.md R80). -/
theorem test_decode_bytes :
    decode [] = .error .truncated ∧ decode [0x60#8] = .error .truncated ∧
    decode [0x60#8, 0x05#8, 0x77#8] = .ok (.ldImm 0 0x05#8, [0x77#8]) := by decide

/-! ## A placed word (log 14), with the expected results of AL1 and CF1 -/

theorem test_withFetchWord_at_reset :
    after (State.reset.withFetchWord 16 0x6005) (fun t => (getV t 0, t.pc)) = some (0x05#8, 0x0202#16) := by decide
theorem test_withFetchWord_beyond_memory :
    after (State.withFetchWord { State.reset with pc := 0x1000#16, status := .awaitKey 1, sched := [.reset] } 16 0x1234) (·.pc) =
      some 0x0234#16 := by decide

/-! ## Control flow (95_test_vectors.md 2.2) -/

/-- CF26. -/
theorem test_sys_faults : after (prog 0x0123#16) faultOf = some (some (some .unknownInstruction, 0x0200#16, 0x0123#16, 0)) := by
  decide
/-- CF6. -/
theorem test_ret_pops :
    after { prog 0x00EE#16 with sp := 1, stack := State.reset.stack.set 0 0x0204#16 } (fun t => (t.sp, t.pc)) =
      some (0, 0x0204#16) := by decide
/-- CF7. -/
theorem test_ret_underflows :
    after (prog 0x00EE#16) faultOf = some (some (some .stackUnderflow, 0x0200#16, 0x00EE#16, 0)) := by decide
/-- CF1. -/
theorem test_jp : after (prog 0x1234#16) (·.pc) = some 0x0234#16 := by decide
/-- CF3, second Cycle: a jump to 0xFFF faults at the fetch. -/
theorem test_fetch_at_fff_faults :
    after { ready with pc := 0x0FFF#16 } faultOf =
      some (some (some .addressOutOfRange, 0x0FFF#16, 0x0000#16, 0x1000)) := by decide
/-- CF22, second Cycle. -/
theorem test_fetch_above_memory_faults :
    after { ready with pc := 0x10FE#16 } faultOf =
      some (some (some .addressOutOfRange, 0x10FE#16, 0x0000#16, 0x10FE)) := by decide
/-- CF9: the sixteenth call. -/
theorem test_call_sixteenth :
    after { prog 0x2300#16 with sp := 15 } (fun t => (t.sp, t.stack[15], t.pc)) = some (16, 0x0202#16, 0x0300#16) := by
  decide
/-- CF8: the seventeenth. -/
theorem test_call_overflows :
    after { prog 0x2300#16 with sp := 16 } faultOf = some (some (some .stackOverflow, 0x0200#16, 0x2300#16, 0)) := by
  decide
/-- CF11. -/
theorem test_seImm_skips : after (withV 3 0x2A#8 (prog 0x332A#16)) (·.pc) = some 0x0204#16 := by decide
/-- CF12. -/
theorem test_seImm_falls : after (withV 3 0x2B#8 (prog 0x332A#16)) (·.pc) = some 0x0202#16 := by decide
/-- CF13. -/
theorem test_sneImm_falls : after (withV 3 0x2A#8 (prog 0x432A#16)) (·.pc) = some 0x0202#16 := by decide
/-- CF14. -/
theorem test_sneImm_skips : after (prog 0x432A#16) (·.pc) = some 0x0204#16 := by decide
/-- CF15. -/
theorem test_seReg_skips : after (withV 1 7#8 (withV 2 7#8 (prog 0x5120#16))) (·.pc) = some 0x0204#16 := by decide
/-- CF16. -/
theorem test_seReg_falls : after (withV 1 7#8 (withV 2 8#8 (prog 0x5120#16))) (·.pc) = some 0x0202#16 := by decide
/-- CF18. -/
theorem test_sneReg_skips : after (withV 1 7#8 (withV 2 8#8 (prog 0x9120#16))) (·.pc) = some 0x0204#16 := by decide
/-- CF20. -/
theorem test_sneReg_same_register : after (withV 1 9#8 (prog 0x9110#16)) (·.pc) = some 0x0202#16 := by decide
/-- CF21. -/
theorem test_jpV0 : after (withV 0 0x04#8 (prog 0xB300#16)) (·.pc) = some 0x0304#16 := by decide
/-- CF22, first Cycle: no wrap. -/
theorem test_jpV0_no_wrap : after (withV 0 0xFF#8 (prog 0xBFFF#16)) (·.pc) = some 0x10FE#16 := by decide
/-- CF27, second Cycle: an odd address. -/
theorem test_fetch_odd_address :
    after (withMem 0x203 [0x61#8, 0x07#8] { ready with pc := 0x0203#16 }) (fun t => (getV t 1, t.pc)) =
      some (0x07#8, 0x0205#16) := by decide

/-! ## Arithmetic and logic (95_test_vectors.md 2.3) -/

/-- AL2. -/
theorem test_ldImm_vf : after (prog 0x6FAB#16) (fun t => (getV t 15, t.pc)) = some (0xAB#8, 0x0202#16) := by decide
/-- AL4. -/
theorem test_addImm_wraps : after (withV 2 0xFF#8 (prog 0x7201#16)) (fun t => (getV t 2, getV t 15)) = some (0x00#8, 0x00#8) := by
  decide
/-- AL5. -/
theorem test_addImm_vf : after (withV 15 0xFF#8 (prog 0x7F02#16)) (getV · 15) = some 0x01#8 := by decide
/-- AL6. -/
theorem test_ldReg : after (withV 2 0x7E#8 (prog 0x8120#16)) (fun t => (getV t 1, getV t 2)) = some (0x7E#8, 0x7E#8) := by
  decide
/-- AL7. -/
theorem test_orReg :
    after (withV 1 0xF0#8 (withV 2 0x0F#8 (withV 15 0x55#8 (prog 0x8121#16)))) (fun t => (getV t 1, getV t 15)) =
      some (0xFF#8, 0x55#8) := by decide
/-- AL8. -/
theorem test_andReg :
    after (withV 1 0xF0#8 (withV 2 0x3C#8 (withV 15 0x55#8 (prog 0x8122#16)))) (fun t => (getV t 1, getV t 15)) =
      some (0x30#8, 0x55#8) := by decide
/-- AL9. -/
theorem test_xorReg :
    after (withV 1 0xF0#8 (withV 2 0x3C#8 (withV 15 0x55#8 (prog 0x8123#16)))) (fun t => (getV t 1, getV t 15)) =
      some (0xCC#8, 0x55#8) := by decide
/-- AL11. -/
theorem test_addReg_carry :
    after (withV 1 0xC8#8 (withV 2 0x64#8 (prog 0x8124#16))) (fun t => (getV t 1, getV t 15)) = some (0x2C#8, 0x01#8) := by
  decide
/-- AL17: the old VF is an operand, then replaced. -/
theorem test_addReg_vf_source :
    after (withV 15 0x01#8 (withV 1 0x20#8 (prog 0x81F4#16))) (fun t => (getV t 1, getV t 15)) = some (0x21#8, 0x00#8) := by
  decide
/-- AL20. -/
theorem test_subReg_borrow :
    after (withV 1 0x05#8 (withV 2 0x0A#8 (withV 15 0x01#8 (prog 0x8125#16)))) (fun t => (getV t 1, getV t 15)) =
      some (0xFB#8, 0x00#8) := by decide
/-- AL24: the flag is what remains in VF. -/
theorem test_subReg_vf_destination : after (withV 15 0x09#8 (withV 1 0x04#8 (prog 0x8F15#16))) (getV · 15) = some 0x01#8 := by
  decide
/-- AL29. -/
theorem test_shr_vx :
    after (withV 1 0x05#8 (withV 2 0xF0#8 (prog 0x8126#16))) (fun t => (getV t 1, getV t 2, getV t 15)) =
      some (0x02#8, 0xF0#8, 0x01#8) := by decide
/-- AL30. -/
theorem test_shr_vy :
    after (withVY (withV 1 0x05#8 (withV 2 0xF0#8 (prog 0x8126#16)))) (fun t => (getV t 1, getV t 2, getV t 15)) =
      some (0x78#8, 0xF0#8, 0x00#8) := by decide
/-- AL27. -/
theorem test_subn_borrow :
    after (withV 1 0x0A#8 (withV 2 0x03#8 (withV 15 0x01#8 (prog 0x8127#16)))) (fun t => (getV t 1, getV t 15)) =
      some (0xF9#8, 0x00#8) := by decide
/-- AL26. -/
theorem test_subn :
    after (withV 1 0x03#8 (withV 2 0x0A#8 (prog 0x8127#16))) (fun t => (getV t 1, getV t 15)) = some (0x07#8, 0x01#8) := by
  decide
/-- AL36. -/
theorem test_shl_vx :
    after (withV 1 0x81#8 (withV 2 0x21#8 (prog 0x812E#16))) (fun t => (getV t 1, getV t 15)) = some (0x02#8, 0x01#8) := by
  decide
/-- AL37. -/
theorem test_shl_vy :
    after (withVY (withV 1 0x81#8 (withV 2 0x21#8 (prog 0x812E#16)))) (fun t => (getV t 1, getV t 15)) =
      some (0x42#8, 0x00#8) := by decide
/-- AL43: with a mask of 0 the random byte leaves no trace, whatever it is. -/
theorem test_rnd_mask_zero : after (withV 3 0x77#8 (prog 0xC300#16)) (getV · 3) = some 0x00#8 := by
  show some (Config.rand 0 &&& 0x00#8) = some 0x00#8
  rw [BitVec.and_zero]
/-- Each RND takes the next draw. -/
theorem test_rnd_draws : after (prog 0xC30F#16) (fun t => (t.draws, t.pc)) = some (1, 0x0202#16) := by decide

/-! ## Address register (95_test_vectors.md 2.4) -/

/-- AR2. -/
theorem test_ldI : after (withI 0xFFFF#16 (prog 0xAFFF#16)) (·.i) = some 0x0FFF#16 := by decide
/-- AR4: past 0xFFF, no fault and no flag. -/
theorem test_addIVx_past_memory :
    after (withI 0x0FFF#16 (withV 2 0x01#8 (prog 0xF21E#16))) (fun t => (t.i, getV t 15)) = some (0x1000#16, 0x00#8) := by
  decide
/-- AR6: modulo 2^16. -/
theorem test_addIVx_wraps : after (withI 0xFF80#16 (withV 2 0xFF#8 (prog 0xF21E#16))) (·.i) = some 0x007F#16 := by decide
/-- AR8. -/
theorem test_ldFVx : after (withV 4 0x07#8 (prog 0xF429#16)) (·.i) = some 0x0073#16 := by decide
/-- AR9: the high nibble is ignored. -/
theorem test_ldFVx_low_nibble : after (withV 4 0x1A#8 (prog 0xF429#16)) (·.i) = some 0x0082#16 := by decide

/-! ## Memory block (95_test_vectors.md 2.5) -/

/-- MB1. -/
theorem test_storeRegs :
    after (withI 0x0300#16 (withV 0 0x11#8 (withV 1 0x22#8 (withV 2 0x33#8 (withV 3 0x44#8 (prog 0xF255#16))))))
      (fun t => (memGet t.mem 0x300, memGet t.mem 0x301, memGet t.mem 0x302, memGet t.mem 0x303, t.i)) =
      some (0x11#8, 0x22#8, 0x33#8, 0x00#8, 0x0300#16) := by decide
/-- MB8: all or nothing at the write barrier. -/
theorem test_storeRegs_protected :
    after (withI 0x01FF#16 (withV 0 0x01#8 (withV 1 0x02#8 (prog 0xF155#16)))) (fun t => (faultOf t, memGet t.mem 0x200)) =
      some (some (some .writeProtected, 0x0200#16, 0xF155#16, 0x01FF), 0xF1#8) := by decide
/-- MB11. -/
theorem test_loadRegs :
    after (withI 0x0050#16 (withV 5 0x77#8 (prog 0xF465#16))) (·.v.toList.take 6) =
      some [0xF0#8, 0x90#8, 0x90#8, 0x90#8, 0xF0#8, 0x77#8] := by decide
/-- MB13: all or nothing at the end of memory. -/
theorem test_loadRegs_out_of_range :
    after (withI 0x0FFF#16 (withV 0 0x09#8 (prog 0xF165#16))) (fun t => (faultOf t, getV t 0)) =
      some (some (some .addressOutOfRange, 0x0200#16, 0xF165#16, 0x1000), 0x09#8) := by decide
/-- MB16. -/
theorem test_ldBVx :
    after (withI 0x0400#16 (withV 5 0x9C#8 (prog 0xF533#16)))
      (fun t => (memGet t.mem 0x400, memGet t.mem 0x401, memGet t.mem 0x402)) = some (0x01#8, 0x05#8, 0x06#8) := by decide
/-- MB21. -/
theorem test_ldBVx_out_of_range :
    after (withI 0x0FFE#16 (withV 5 0x7B#8 (prog 0xF533#16))) (fun t => (faultOf t, memGet t.mem 0xFFE)) =
      some (some (some .addressOutOfRange, 0x0200#16, 0xF533#16, 0x1000), 0x00#8) := by decide

/-! ## Display (95_test_vectors.md 2.6) -/

/-- DS1. -/
theorem test_cls :
    after (withPixel 0 0 (withPixel 10 10 (withPixel 63 31 (prog 0x00E0#16))))
      (fun t => (onIn 0 t, onIn 10 t, onIn 31 t, t.pc)) = some ([], [], [], 0x0202#16) := by decide
/-- DS6: both axes wrap, bit by bit. -/
theorem test_drw_wraps :
    after (withI 0x0300#16 (withMem 0x300 [0xC0#8] (withV 0 0xFF#8 (withV 1 0xFF#8 (prog 0xD011#16)))))
      (fun t => (onIn 31 t, getV t 15)) = some ([0, 63], 0x00#8) := by decide
/-- DS7: collision. -/
theorem test_drw_collides :
    after (withI 0x0300#16 (withMem 0x300 [0xC0#8] (withPixel 1 0 (prog 0xD011#16)))) (fun t => (onIn 0 t, getV t 15)) =
      some ([0], 0x01#8) := by decide
/-- S9 and DS2, the middle and bottom rows of glyph 0. -/
theorem test_drw_glyph_zero :
    after (withI 0x0050#16 (prog 0xD015#16)) (fun t => (onIn 1 t, onIn 4 t, onIn 5 t)) = some ([0, 3], [0, 1, 2, 3], []) := by
  decide

/-! ## Input (95_test_vectors.md 2.7) -/

/-- IN5: the low nibble. -/
theorem test_skp_low_nibble : after (setKey 5 true (withV 2 0x15#8 (prog 0xE29E#16))) (·.pc) = some 0x0204#16 := by decide
/-- IN2. -/
theorem test_skp_falls : after (withV 2 0x0A#8 (prog 0xE29E#16)) (·.pc) = some 0x0202#16 := by decide
/-- IN3. -/
theorem test_sknp_skips : after (withV 2 0x0A#8 (prog 0xE2A1#16)) (·.pc) = some 0x0204#16 := by decide
/-- IN6. -/
theorem test_sknp_falls : after (setKey 0 true (withV 2 0xF0#8 (prog 0xE2A1#16))) (·.pc) = some 0x0202#16 := by decide
/-- IN8: a pressed key does not complete the wait in its own Cycle. -/
theorem test_ldVxK_waits :
    after (setKey 7 true (prog 0xF30A#16)) (fun t => (t.status, t.pc, getV t 3)) =
      some (.awaitKey 3, 0x0202#16, 0x00#8) := by decide
/-- IN9, second Cycle: the least pressed key, and no instruction is run. -/
theorem test_poll_least_key :
    after (setKey 7 true (setKey 12 true { prog 0x6001#16 with status := .awaitKey 3 }))
      (fun t => (getV t 3, t.status, t.pc, getV t 0)) = some (0x07#8, .running, 0x0200#16, 0x00#8) := by decide
/-- IN11, a poll without a key. -/
theorem test_poll_waits_on :
    after { prog 0x6001#16 with status := .awaitKey 3 } (fun t => (t.status, t.pc)) = some (.awaitKey 3, 0x0200#16) := by
  decide

/-! ## Timers (95_test_vectors.md 2.8) -/

/-- TM1. -/
theorem test_ldVxDT : after { prog 0xF507#16 with dt := 0x3C#8 } (fun t => (getV t 5, t.dt)) = some (0x3C#8, 0x3C#8) := by
  decide
/-- TM2. -/
theorem test_ldDTVx : after (withV 1 0x02#8 (prog 0xF115#16)) (fun t => (t.dt, t.st)) = some (0x02#8, 0x00#8) := by decide
/-- TM3. -/
theorem test_ldSTVx : after (withV 1 0x1E#8 (prog 0xF118#16)) (fun t => (t.st, t.dt)) = some (0x1E#8, 0x00#8) := by decide
/-- TM6, first tick, served as a host operation. -/
theorem test_tick :
    after { State.reset with dt := 0x01#8, st := 0x03#8, sched := [.tickTimers] } (fun t => (t.dt, t.st, t.sched)) =
      some (0x00#8, 0x02#8, []) := by decide
/-- TM6, a zero timer stays zero. -/
theorem test_tick_stays_zero : after { State.reset with st := 0x01#8, sched := [.tickTimers] } (fun t => (t.dt, t.st)) =
    some (0x00#8, 0x00#8) := by decide

/-! ## Reset, load, host (95_test_vectors.md 2.9; 60_exceptions.md) -/

/-- RS1, its bytes of memory. -/
theorem test_reset_memory :
    [0x04F, 0x050, 0x09F, 0x0A0, 0x1FF, 0x200].map (memGet State.reset.mem) =
      [0x00#8, 0xF0#8, 0x80#8, 0x00#8, 0x00#8, 0x00#8] := by decide
/-- RS1, the sum of the fontset bytes. -/
theorem test_fontset_sum : (fontset.map (·.toNat)).sum = 13008 := by decide
/-- S7: the bytes loaded are in order. -/
theorem test_load :
    after { State.reset with sched := [.loadProgram [0x00#8, 0xE0#8]] } (fun t => (memReadWord t.mem 0x200, t.pc)) =
      some (.ok 0x00E0#16, 0x0200#16) := by decide
/-- RS3: too large; nothing changes. -/
theorem test_load_too_large (b : Byte) : loadProgram (List.replicate 3585 b) State.reset = .error .programTooLarge :=
  if_pos (by rw [List.length_replicate]; decide)
/-- 70_reset_and_hazards.md R247: no second LoadProgram before a Reset, not even after an empty or an all-zero image. -/
theorem test_second_load_stops :
    after { State.reset with sched := [.loadProgram []] } (bootReady ·) = some false ∧
    after { State.reset with sched := [.loadProgram [0x00#8]] } (bootReady ·) = some false ∧
    step { markLoaded State.reset with sched := [.loadProgram []] } = .fault .loadOutsideBoot ∧
    after { markLoaded State.reset with sched := [.reset] } (bootReady ·) = some true :=
  ⟨by decide, by decide, rfl, by decide⟩
/-- RS4: an empty image; the first Cycle runs the word 0x0000. -/
theorem test_first_cycle_of_empty_memory :
    after ready faultOf = some (some (some .unknownInstruction, 0x0200#16, 0x0000#16, 0)) := by decide
/-- RS5: Reset leaves FAULTED. -/
theorem test_reset_leaves_faulted :
    after { State.reset with status := .faulted, sched := [.reset] } (fun t => (t.status, t.record.cause)) =
      some (.running, none) := by decide
/-- TM9: TickTimers and SetKey act in FAULTED. -/
theorem test_setKey_in_faulted :
    after { State.reset with status := .faulted, sched := [.setKey 3 true] } (fun t => (t.key[3], t.status)) =
      some (true, .faulted) := by decide
/-- 00_scope.md R17: a look at the core changes nothing, and leaves the rest of the scheduled order
as it was. -/
theorem test_host_order :
    after { State.reset with sched := [.observe, .setKey 3 true, .cycle] } (·.sched) = some [.setKey 3 true, .cycle] ∧
    after { State.reset with sched := [.observe] } (fun t => decide (t = State.reset)) = some true := by decide
/-- A free host's turn is counted, so that its next choice is a further one (log 5). -/
theorem test_free_host_turn : (takeOp State.reset).turns = 1 ∧ (takeOp ready).turns = 0 := by decide
/-- The codes of 60_exceptions.md R203, and `sound_active` of R217. -/
theorem test_observations :
    [Cause.addressOutOfRange, .stackOverflow, .stackUnderflow, .unknownInstruction, .programTooLarge, .writeProtected].map
      causeCode = [1, 2, 3, 4, 5, 6] ∧ soundActive { State.reset with st := 1#8 } = true ∧ soundActive State.reset = false := by
  decide
/-- R226 to R228: the observations at reset, and the fault record only when FAULTED. -/
theorem test_observations_at_reset :
    getStatus State.reset = (.running, none) ∧ readMem State.reset 0x050 = 0xF0#8 ∧ liveStack State.reset = [] ∧
    readSP { State.reset with sp := 16 } = 16#8 ∧ getPixel (withPixel 5 2 State.reset) 5 2 = true := by decide
/-- The state after reset has a memory in canonical form. -/
theorem test_reset_memory_wf : Memory.wf State.reset.mem := wf_nil

/-! ## Witnesses: the hypotheses of the obligations can be met, each clause at a boundary -/

theorem witness_encodeThenDecode : (Instr.sys 0x0EF#12).wellFormed = true ∧ (Instr.drw 15 15 0xF#4).wellFormed = true := by
  decide
theorem witness_decodeThenEncode : decodeWord 0x0FFF#16 = .ok (.sys 0xFFF#12) ∧ decodeWord 0xFF65#16 = .ok (.loadRegs 15) := by
  decide
theorem witness_unassigned : Unassigned 0x5121#16 ∧ Unassigned 0x8008#16 ∧ Unassigned 0x9FFF#16 ∧ Unassigned 0xE09F#16 ∧
    Unassigned 0xFF66#16 :=
  ⟨by decide, by decide, by decide, by decide, by decide⟩
theorem witness_assigned : ¬ Unassigned 0x8007#16 ∧ ¬ Unassigned 0x800E#16 ∧ ¬ Unassigned 0xE09E#16 ∧ ¬ Unassigned 0xFF65#16 ∧
    ¬ Unassigned 0x0000#16 :=
  ⟨by decide, by decide, by decide, by decide, by decide⟩

/-- StepRunsTheDecodedInstruction, CycleFollowsTheStatus: an instruction at PC, with and without a scheduled Cycle. -/
theorem witness_step : (prog 0x6005#16).status = .running ∧
    memReadWord (prog 0x6005#16).mem (prog 0x6005#16).pc.toNat = .ok 0x6005#16 ∧
    decodeWord 0x6005#16 = .ok (.ldImm 0 0x05#8) ∧ (prog 0x6005#16).sched = [] ∧ (prog 0x6005#16).host = .cycleOnly ∧
    nextOp (prog 0x6005#16) = .cycle ∧ ({ prog 0x6005#16 with sched := [.cycle, .reset] }).sched = .cycle :: [.reset] := by
  decide
/-- CycleFollowsTheStatus: a refused word at PC, a fetch that faults, the two other statuses. -/
theorem witness_cycle : fetch (prog 0x5121#16) = .ok 0x5121#16 ∧
    decodeWord 0x5121#16 = .error (.unknownInstruction 0x5121#16) ∧
    fetch { State.reset with pc := 0x0FFF#16 } = .error 0x1000 ∧
    ({ State.reset with status := .faulted }).status = .faulted ∧
    ({ State.reset with status := .awaitKey 15 }).status = .awaitKey 15 := by decide
/-- FetchReadsTwoBytesOrFaults: the last PC of each clause, and the first of the next. -/
theorem witness_fetch : ({ State.reset with pc := 0x0FFE#16 }).pc.toNat ≤ 0xFFE ∧
    ({ State.reset with pc := 0x0FFF#16 }).pc.toNat = 0xFFF ∧ ({ State.reset with pc := 0x1000#16 }).pc.toNat > 0xFFF ∧
    State.reset.status = .running := by decide
theorem witness_unassigned_at_pc : (prog 0xE29F#16).status = .running ∧ fetch (prog 0xE29F#16) = .ok 0xE29F#16 ∧
    Unassigned 0xE29F#16 := by decide
theorem witness_sys_at_pc : State.reset.status = .running ∧ fetch State.reset = .ok 0x0000#16 ∧ SysWord 0x0000#16 := by
  decide
/-- FaultingCycleKeepsNothingElse, on a fault after the fetch. -/
theorem witness_faulting_cycle : State.reset.status = .running ∧
    cycle State.reset = .next (enterFault State.reset .unknownInstruction 0x0000#16 0) ∧
    (enterFault State.reset .unknownInstruction 0x0000#16 0).status = .faulted ∧ fetch State.reset = .ok 0x0000#16 :=
  ⟨rfl, rfl, rfl, rfl⟩
/-- FaultingCycleKeepsNothingElse, on a fault of the fetch. -/
theorem witness_faulting_fetch :
    cycle { State.reset with pc := 0x1000#16 } =
      .next (enterFault { State.reset with pc := 0x1000#16 } .addressOutOfRange 0x0000#16 0x1000) ∧
    fetch { State.reset with pc := 0x1000#16 } = .error 0x1000 := ⟨rfl, rfl⟩
/-- InstructionsFaultOnlyWhereTheirRuleRaises: RET on the empty stack. -/
theorem witness_instruction_faults : State.reset.status ≠ .faulted ∧
    exec .ret State.reset = .next (enterFault State.reset .stackUnderflow 0x00EE#16 0) ∧
    (enterFault State.reset .stackUnderflow 0x00EE#16 0).status = .faulted := ⟨by decide, rfl, rfl⟩
/-- FaultedIsLeftByResetOnly: a host that goes on with Cycle, a scheduled Cycle, a tick. -/
theorem witness_faulted :
    nextOp { ready with status := .faulted } = .cycle ∧ (ready.sched = [] ∧ ready.host = .cycleOnly) ∧
    step { ready with status := .faulted } = .next { ready with status := .faulted } ∧
    step { State.reset with status := .faulted, sched := [.cycle] } = .next { State.reset with status := .faulted } ∧
    (∃ t, step { State.reset with status := .faulted, sched := [.tickTimers] } = .next t) ∧
    nextOp { State.reset with status := .faulted, sched := [.tickTimers] } ≠ .reset :=
  ⟨rfl, ⟨rfl, rfl⟩, rfl, rfl, ⟨_, rfl⟩, by decide⟩
/-- StepServesTheHostOperation: where the next operation comes from. -/
theorem witness_host_operation :
    ({ State.reset with sched := [.setKey 15 true, .observe] }).sched = .setKey 15 true :: [.observe] ∧
    (State.reset.sched = [] ∧ State.reset.host = .free) ∧ (ready.sched = [] ∧ ready.host = .cycleOnly) := by decide
/-- StepServesTheHostOperation: where LoadProgram is defined and where not, and the Cycle after which it no longer is. -/
theorem witness_load_defined (b : Byte) :
    bootReady State.reset = true ∧ bootReady { State.reset with pc := 0x0202#16 } = false ∧
    loadProgram [] State.reset = .ok State.reset ∧
    loadProgram (List.replicate 3585 b) State.reset = .error .programTooLarge ∧ (∃ t, cycle State.reset = .next t) ∧
    (∃ t, serve (.loadProgram []) State.reset = .next t) ∧ (markLoaded State.reset).loaded = true ∧
    ∃ t, serve .tickTimers (markLoaded State.reset) = .next t :=
  ⟨by decide, by decide, rfl, test_load_too_large b, ⟨_, rfl⟩, ⟨_, rfl⟩, rfl, ⟨_, rfl⟩⟩
theorem witness_placed : decodeTableWord 16 0x6005 = some (.ldImm 0 0x05#8) ∧ decodeTableWord 16 0x0000 = some (.sys 0x000#12) := by
  decide
theorem witness_return : State.reset.sp.val = 0 ∧ 0 < ({ State.reset with sp := 1 }).sp.val ∧
    0 < ({ State.reset with sp := 16 }).sp.val := by decide
theorem witness_call : ({ State.reset with sp := 16 }).sp.val = 16 ∧ ({ State.reset with sp := 15 }).sp.val < 16 ∧
    State.reset.sp.val < 16 := by decide
/-- AddRegistersReportsCarry, SubtractsReportNoBorrow, ShiftsReportTheBitShiftedOut: a destination that is not VF. -/
theorem witness_not_vf : (14 : Reg) ≠ 15 ∧ (0 : Reg) ≠ 15 := by decide
theorem witness_shift_source :
    0x03#8 = (if (withVY (withV 2 0x03#8 State.reset)).params.shiftSource = .vy then getV (withVY (withV 2 0x03#8 State.reset)) 2
      else getV (withVY (withV 2 0x03#8 State.reset)) 1) ∧
    0x05#8 = (if (withV 1 0x05#8 State.reset).params.shiftSource = .vy then getV (withV 1 0x05#8 State.reset) 2
      else getV (withV 1 0x05#8 State.reset) 1) := by decide
/-- StoreRegistersWritesBlockOrFaults with x = 15: the first I of each clause, and the last that completes. -/
theorem witness_store : (withI 0x0FF1#16 State.reset).i.toNat + 15 > 0xFFF ∧ (withI 0x01FF#16 State.reset).i.toNat < 0x200 ∧
    0x200 ≤ (withI 0x0200#16 State.reset).i.toNat ∧ (withI 0x0200#16 State.reset).i.toNat + 15 ≤ 0xFFF ∧
    0x200 ≤ (withI 0x0FF0#16 State.reset).i.toNat ∧ (withI 0x0FF0#16 State.reset).i.toNat + 15 ≤ 0xFFF := by decide
/-- LoadRegistersReadsBlockOrFaults: both sides of the end of memory, and a register on each side of x. -/
theorem witness_load : (withI 0x0FFF#16 State.reset).i.toNat + (1 : Reg).val > 0xFFF ∧
    (withI 0x0FFF#16 State.reset).i.toNat + (0 : Reg).val ≤ 0xFFF ∧ (0 : Reg) ≤ 0 ∧ (0 : Reg) < 1 := by decide
theorem witness_decimal : (withI 0x0FFE#16 State.reset).i.toNat + 2 > 0xFFF ∧ (withI 0x01FF#16 State.reset).i.toNat < 0x200 ∧
    0x200 ≤ (withI 0x0200#16 State.reset).i.toNat ∧ (withI 0x0FFD#16 State.reset).i.toNat + 2 ≤ 0xFFF := by decide
/-- DrawXorsSpriteAndReportsCollision: the highest I for fifteen rows, and any I for none. -/
theorem witness_draw_in_range : InRange (withI 0x0FF1#16 State.reset).i.toNat (15#4).toNat ∧
    InRange (withI 0x1234#16 State.reset).i.toNat (0#4).toNat := by decide
/-- DrawXorsSpriteAndReportsCollision: a pixel that a 1 bit lands on, and that is on; one that none lands on. -/
theorem witness_draw_hits :
    SpriteHits (withPixel 63 31 State.reset).mem 0x050 1 63 31 63 31 ∧ pixelAt (withPixel 63 31 State.reset).fb 63 31 = true ∧
    ¬ SpriteHits State.reset.mem 0x050 1 63 31 62 31 := by
  refine ⟨⟨0, by decide, 0, by decide, by decide, by decide, by decide⟩, by decide, ?_⟩
  rintro ⟨r, hr, k, hk, -, h, -⟩
  have : (62 : Fin 64).val = 62 := rfl
  omega
theorem witness_draw_no_collision : ¬ ∃ (px : Fin 64) (py : Fin 32), pixelAt State.reset.fb px py = true ∧
    SpriteHits State.reset.mem 0x050 5 0 0 px py := by
  rintro ⟨px, py, h, -⟩
  exact absurd h (by simp [pixelAt, State.reset])
theorem witness_draw_out_of_range : 0 < (15#4).toNat ∧ (withI 0x0FF2#16 State.reset).i.toNat + (15#4).toNat - 1 > 0xFFF ∧
    0 < (1#4).toNat ∧ (withI 0x1000#16 State.reset).i.toNat + (1#4).toNat - 1 > 0xFFF := by decide
/-- The state after one row of glyph 0 is drawn at the origin of the blank screen, and after it is drawn again. -/
def drawnOnce : State :=
  advance (setFlag { withI 0x0050#16 State.reset with
    fb := flipPixel (flipPixel (flipPixel (flipPixel blankScreen 0 0) 1 0) 2 0) 3 0 } false)
/-- DrawingTwiceRestoresTheFramebuffer, all its hypotheses at once. -/
theorem witness_draw_twice :
    InRange (withI 0x0050#16 State.reset).i.toNat (1#4).toNat ∧ InRange drawnOnce.i.toNat (1#4).toNat ∧
    exec (.drw 0 1 1#4) (withI 0x0050#16 State.reset) = .next drawnOnce ∧ drawnOnce.fb = drawnOnce.fb ∧
    (getV drawnOnce 0).toNat % 64 = (getV (withI 0x0050#16 State.reset) 0).toNat % 64 ∧
    (getV drawnOnce 1).toNat % 32 = (getV (withI 0x0050#16 State.reset) 1).toNat % 32 ∧
    (∀ r < (1#4).toNat, memRead drawnOnce.mem (drawnOnce.i.toNat + r) =
      memRead (withI 0x0050#16 State.reset).mem ((withI 0x0050#16 State.reset).i.toNat + r)) ∧
    (∃ w, exec (.drw 0 1 1#4) drawnOnce = .next w) ∧
    pixelAt (withI 0x0050#16 State.reset).fb 3 0 = false ∧ pixelAt drawnOnce.fb 3 0 = true :=
  ⟨by decide, by decide, rfl, rfl, by decide, by decide, fun _ _ => rfl, ⟨_, rfl⟩, by decide, by decide⟩
theorem witness_key_skip : (15 : Key).val = (getV (withV 2 0xFF#8 State.reset) 2).toNat % 16 := by decide
/-- PollTakesTheLeastPressedKey: key 15 alone, and no key. -/
theorem witness_poll : ({ setKey 15 true State.reset with status := .awaitKey 3 }).status = .awaitKey 3 ∧
    (setKey 15 true State.reset).key[15] = true ∧
    (∀ j : Key, (setKey 15 true State.reset).key[j] = true → (15 : Key) ≤ j) ∧ ∀ k : Key, State.reset.key[k] = false := by
  decide
theorem witness_setKey : (3 : Key) ≠ 15 := by decide
theorem witness_load_program (b : Byte) : (List.replicate 3585 b).length > 3584 ∧ (List.replicate 3584 b).length ≤ 3584 ∧
    (List.replicate 3584 b)[3583]? = some b := by
  refine ⟨?_, ?_, ?_⟩
  · rw [List.length_replicate]; decide
  · rw [List.length_replicate]
  · rw [List.getElem?_replicate, if_pos (by decide)]
theorem witness_reset_bytes : (0xFFF ≤ 0xFFF ∧ ¬ (0x050 ≤ 0xFFF ∧ 0xFFF ≤ 0x09F)) ∧ ¬ (0x050 ≤ 0x04F ∧ 0x04F ≤ 0x09F) ∧
    ¬ (0x050 ≤ 0x0A0 ∧ 0x0A0 ≤ 0x09F) ∧ 79 < 80 := by decide
/-- WrittenByteIsReadBack, WordReadIsBigEndian, CpuStoreRefusesProtectedAddresses: the edges of each clause. -/
theorem witness_addresses : 0xFFF ≤ 0xFFF ∧ 0x1000 > 0xFFF ∧ 0xFFE ≤ 0xFFE ∧ 0x1FF < 0x200 ∧ 0x200 ≤ 0x200 ∧ 0x200 ≤ 0xFFF := by
  decide
theorem witness_canonical : Memory.wf [] ∧ memWrite [] 0x200 0x01#8 = .ok [(0x200, 0x01#8)] ∧ Memory.wf [(0x200, 0x01#8)] ∧
    ∀ a, memRead [(0x200, 0x01#8)] a = memRead [(0x200, 0x01#8)] a := by
  refine ⟨wf_nil, by decide, by decide, fun _ => rfl⟩
/-- StoredWordIsFetchedNext: MB10. -/
theorem witness_stored_word : 1 ≤ (1 : Reg).val ∧ 0x200 ≤ (withI 0x0202#16 State.reset).i.toNat ∧
    (withI 0x0202#16 State.reset).i.toNat + (1 : Reg).val ≤ 0xFFF ∧
    (withI 0x0202#16 State.reset).i = (withI 0x0202#16 State.reset).pc + 2#16 ∧
    ∃ t, exec (.storeRegs 1) (withI 0x0202#16 State.reset) = .next t :=
  ⟨by decide, by decide, by decide, by decide, ⟨_, rfl⟩⟩
theorem reset_inv : Inv State.reset := by decide
/-- EveryStepKeepsTheInvariant: a state with a live return address, and its step. -/
theorem witness_invariant : Inv { prog 0x00EE#16 with sp := 1, stack := State.reset.stack.set 0 0x1000#16 } ∧
    ∃ t, step { prog 0x00EE#16 with sp := 1, stack := State.reset.stack.set 0 0x1000#16 } = .next t :=
  ⟨by decide, ⟨_, rfl⟩⟩
/-- NoCycleWritesBelow0x200, NoCycleWritesTheKeyLatch: a Cycle that stores. -/
theorem witness_cycle_next : (∃ t, cycle (withI 0x0300#16 (prog 0xF055#16)) = .next t) ∧ 0x1FF < 0x200 := ⟨⟨_, rfl⟩, by decide⟩
/-- EachPieceIsWrittenByItsInstructionsOnly: an instruction that changes each piece. -/
theorem witness_each_piece :
    (∃ t, exec (.call 0x300#12) State.reset = .next t ∧ t.sp ≠ State.reset.sp ∧ t.stack ≠ State.reset.stack) ∧
    (∃ t, exec (.ldDTVx 1) (withV 1 2#8 State.reset) = .next t ∧ t.dt ≠ State.reset.dt) ∧
    (∃ t, exec (.ldSTVx 1) (withV 1 2#8 State.reset) = .next t ∧ t.st ≠ State.reset.st) ∧
    (∃ t, exec (.ldI 0x050#12) State.reset = .next t ∧ t.i ≠ State.reset.i) ∧
    (∃ t, exec .cls (withPixel 0 0 State.reset) = .next t ∧ t.fb ≠ (withPixel 0 0 State.reset).fb) ∧
    (∃ t, exec (.storeRegs 0) (withI 0x0300#16 (withV 0 1#8 State.reset)) = .next t ∧ t.mem ≠ State.reset.mem) :=
  ⟨⟨_, rfl, by decide, by decide⟩, ⟨_, rfl, by decide⟩, ⟨_, rfl, by decide⟩, ⟨_, rfl, by decide⟩, ⟨_, rfl, by decide⟩,
    ⟨_, rfl, by decide⟩⟩
theorem witness_registers_written : (∃ t, exec (.loadRegs 15) (withI 0x0050#16 State.reset) = .next t) ∧
    ({ State.reset with status := .awaitKey 0 }).status = .awaitKey 0 ∧
    ∃ t, cycle { State.reset with status := .awaitKey 0 } = .next t := ⟨⟨_, rfl⟩, rfl, ⟨_, rfl⟩⟩
/-- RegistersAreReadAsListed: SHR V1, V2 in two states that differ in V2 only, which it does not read. -/
theorem witness_registers_read :
    withV 2 9#8 State.reset = { State.reset with v := (withV 2 9#8 State.reset).v } ∧
    (∀ r ∈ readRegs State.reset.params.shiftSource (.shr 1 2), getV (withV 2 9#8 State.reset) r = getV State.reset r) ∧
    (∃ t, exec (.shr 1 2) State.reset = .next t ∧ t.status ≠ .faulted) ∧
    (∃ t, exec (.shr 1 2) (withV 2 9#8 State.reset) = .next t) ∧ (1 : Reg) ∈ writtenRegs (.shr 1 2) :=
  ⟨rfl, by decide, ⟨_, rfl, by decide⟩, ⟨_, rfl⟩, by decide⟩
/-- JumpToItselfIsAFixedPoint: CF2. -/
theorem witness_jump_to_itself : (prog 0x1200#16).status = .running ∧ (prog 0x1200#16).pc.toNat = (0x200#12).toNat ∧
    fetch (prog 0x1200#16) = .ok (0x1000#16 ||| (0x200#12).setWidth 16) := by decide

end Sys2Proof.Tests
end

section
/-! SUPPORT. What each instruction answers, said once in two parts: the fault its rule raises, which no general register
decides, and the state it leaves where it raises none. -/

namespace Sys2Proof.Machine

/-- The fault of a block stored at the addresses `a` to `a + d` (20_memory.md R60; 43_memory_block.md R150, R152). -/
def blockStoreFault (a d : Nat) : Option (Cause × Nat) :=
  if a + d > 0xFFF then some (.addressOutOfRange, max a 0x1000)
  else if a < 0x200 then some (.writeProtected, a)
  else none

/-- The fault that an instruction raises, if any: its cause and the address it reports (60_exceptions.md R203, R207). -/
def raisedFault (i : Instr) (s : State) : Option (Cause × Nat) :=
  match i with
  | .sys _ => some (.unknownInstruction, 0)
  | .ret => if 0 < s.sp.val then none else some (.stackUnderflow, 0)
  | .call _ => if s.sp.val < 16 then none else some (.stackOverflow, 0)
  | .drw _ _ n => if Safety.InRange s.i.toNat n.toNat then none else some (.addressOutOfRange, max s.i.toNat 0x1000)
  | .loadRegs x => if s.i.toNat + x.val > 0xFFF then some (.addressOutOfRange, max s.i.toNat 0x1000) else none
  | .storeRegs x => blockStoreFault s.i.toNat x.val
  | .ldBVx _ => blockStoreFault s.i.toNat 2
  | _ => none

/-- The state that an instruction leaves where `raisedFault` answers none; `exec_eq` ties it to `exec`. Elsewhere it says
nothing about the machine: SYS, which always raises, and CALL on a full stack have the state as it was. -/
def effect (i : Instr) (s : State) : State :=
  match i with
  | .cls => advance { s with fb := blankScreen }
  | .ret => { s with pc := s.stack[s.sp.val - 1], sp := ⟨s.sp.val - 1, by omega⟩ }
  | .sys _ => s
  | .jp nnn => jumpTo s (addressOf nnn)
  | .call nnn =>
    if h : s.sp.val < 16 then
      { s with stack := s.stack.set s.sp.val (npc s), sp := ⟨s.sp.val + 1, Nat.succ_lt_succ h⟩, pc := addressOf nnn }
    else s
  | .seImm x nn => skipIf s (getV s x == nn)
  | .sneImm x nn => skipIf s (getV s x != nn)
  | .seReg x y => skipIf s (getV s x == getV s y)
  | .ldImm x nn => advance (setV s x nn)
  | .addImm x nn => advance (setV s x (addByte (getV s x) nn))
  | .ldReg x y => advance (setV s x (getV s y))
  | .orReg x y => advance (setV s x (getV s x ||| getV s y))
  | .andReg x y => advance (setV s x (getV s x &&& getV s y))
  | .xorReg x y => advance (setV s x (getV s x ^^^ getV s y))
  | .addReg x y =>
    advance (setResultAndFlag s x (addByte (getV s x) (getV s y)) (carryOut (getV s x) (getV s y)))
  | .subReg x y =>
    advance (setResultAndFlag s x (subByte (getV s x) (getV s y)) (noBorrow (getV s x) (getV s y)))
  | .shr x y => advance (setResultAndFlag s x (shiftOperand s x y >>> 1) (bitOutRight (shiftOperand s x y)))
  | .subn x y =>
    advance (setResultAndFlag s x (subByte (getV s y) (getV s x)) (noBorrow (getV s y) (getV s x)))
  | .shl x y => advance (setResultAndFlag s x (shiftOperand s x y <<< 1) (bitOutLeft (shiftOperand s x y)))
  | .sneReg x y => skipIf s (getV s x != getV s y)
  | .ldI nnn => advance { s with i := addressOf nnn }
  | .jpV0 nnn => jumpTo s (addressOf nnn + (getV s 0).setWidth 16)
  | .rnd x nn => advance (setV { s with draws := s.draws + 1 } x (Config.rand s.draws &&& nn))
  | .drw x y n =>
    let c := drawn s.mem s.i.toNat n.toNat (getV s x).toNat (getV s y).toNat s.fb
    advance (setFlag { s with fb := c.fb } c.collision)
  | .skp x => skipIf s (keyPressed s (lowNibble (getV s x)))
  | .sknp x => skipIf s (!keyPressed s (lowNibble (getV s x)))
  | .ldVxDT x => advance (setV s x s.dt)
  | .ldVxK x => advance { s with status := .awaitKey x }
  | .ldDTVx x => advance { s with dt := getV s x }
  | .ldSTVx x => advance { s with st := getV s x }
  | .addIVx x => advance { s with i := s.i + (getV s x).setWidth 16 }
  | .ldFVx x => advance { s with i := glyphAddress (lowNibble (getV s x)) }
  | .ldBVx x => advance { s with mem := memSetBytes s.mem s.i.toNat (decimalDigits (getV s x)) }
  | .storeRegs x => advance { s with mem := memSetBytes s.mem s.i.toNat (valuesUpTo s x) }
  | .loadRegs x => advance (setVs s ((List.range (x.val + 1)).map fun k => memGet s.mem (s.i.toNat + k)))

/-- Everything an instruction can answer: the fault its rule raises, else its effect. -/
theorem exec_eq (i : Instr) (s : State) :
    exec i s = match raisedFault i s with
      | some (c, a) => .next (enterFault s c (encode i) a)
      | none => .next (effect i s) := by
  cases i with
  | ret =>
    simp only [exec, execRet_eq, raisedFault]
    split_ifs <;> rfl
  | call nnn =>
    simp only [exec, execCall_eq, raisedFault, effect]
    split_ifs <;> rfl
  | drw x y n =>
    simp only [exec, execDrw_eq, raisedFault]
    split_ifs <;> rfl
  | loadRegs x =>
    simp only [exec, execLoadRegs_eq, raisedFault]
    split_ifs <;> rfl
  | storeRegs x =>
    simp only [exec, execStoreRegs_eq, raisedFault, blockStoreFault]
    split_ifs <;> rfl
  | ldBVx x =>
    simp only [exec, execLdBVx_eq, raisedFault, blockStoreFault]
    split_ifs <;> rfl
  | _ => rfl

/-- `exec_eq` for a state that `exec` answers. -/
theorem exec_next_inv {i : Instr} {s t : State} (h : exec i s = .next t) :
    (∃ (c : Cause) (a : Nat), raisedFault i s = some (c, a) ∧ t = enterFault s c (encode i) a) ∨
    (raisedFault i s = none ∧ t = effect i s) := by
  rw [exec_eq] at h
  split at h
  · rename_i c a hf
    cases h
    exact .inl ⟨c, a, hf, rfl⟩
  · rename_i hf
    cases h
    exact .inr ⟨hf, rfl⟩

/-- Whether an instruction faults, and with what, is decided by SP and I alone. -/
theorem raisedFault_congr {s s' : State} (i : Instr) (hsp : s'.sp = s.sp) (hi : s'.i = s.i) :
    raisedFault i s' = raisedFault i s := by
  unfold raisedFault
  rw [hsp, hi]

end Sys2Proof.Machine
end

section
/-! PROOF. What no Cycle writes: the key latch, the parameter and the host's fields (10_state.md R38). -/

namespace Sys2Proof.Machine

/-- The poll writes its register and the status (45_input.md R173). -/
theorem pollKey_frame (x : Reg) (s : State) :
    pollKey x s = { s with v := (pollKey x s).v, status := (pollKey x s).status } := by
  rcases pollKey_cases x s with ⟨-, h⟩ | ⟨k, -, h⟩
  · rw [h]
  · rw [h]
    rfl

end Sys2Proof.Machine

open Sys2Proof Sys2Proof.Machine

/-- Settles O56: the poll writes a register and the status, a fault entry the status and the record, and no instruction
writes the latch or a field of the host, which `Completes` says of each. -/
theorem noCycleWritesTheKeyLatch : Obligations.NoCycleWritesTheKeyLatch := by
  intro s t h
  rcases cycle_cases h with ⟨-, rfl⟩ | ⟨x, -, rfl⟩ | ⟨-, ⟨c, w, a, -, rfl⟩ | ⟨w, i, -, -, hexec⟩⟩
  · exact ⟨rfl, rfl, rfl, rfl, rfl, rfl⟩
  · rw [pollKey_frame x s]
    exact ⟨rfl, rfl, rfl, rfl, rfl, rfl⟩
  · exact ⟨rfl, rfl, rfl, rfl, rfl, rfl⟩
  · rcases exec_inv hexec with ⟨c, a, -, rfl⟩ | hc
    · exact ⟨rfl, rfl, rfl, rfl, rfl, rfl⟩
    · exact ⟨hc.key, hc.params, hc.sched, hc.host, hc.turns, hc.loaded⟩

end

section
/-! PROOF. Which instructions write the stack, I, the timers, the framebuffer and memory (10_state.md R23, R30 to R32,
R36; 20_memory.md R64). -/

namespace Sys2Proof.Machine

/-! An instruction's effect leaves each piece as it was, unless the instruction is one of those listed for it. -/

theorem effect_stack (i : Instr) (s : State) :
    ((effect i s).sp = s.sp ∧ (effect i s).stack = s.stack) ∨ i = .ret ∨ ∃ nnn : BitVec 12, i = .call nnn := by
  cases i with
  | ret => exact .inr (.inl rfl)
  | call nnn => exact .inr (.inr ⟨nnn, rfl⟩)
  | _ => exact .inl ⟨rfl, rfl⟩

/-- CALL writes the stack, its pointer and PC. -/
theorem effect_call_frame (nnn : BitVec 12) (s : State) :
    effect (.call nnn) s =
      { s with
        stack := (effect (.call nnn) s).stack
        sp := (effect (.call nnn) s).sp
        pc := (effect (.call nnn) s).pc } := by
  simp only [effect]
  split_ifs <;> rfl

theorem effect_dt (i : Instr) (s : State) : (effect i s).dt = s.dt ∨ ∃ x : Reg, i = .ldDTVx x := by
  cases i with
  | ldDTVx x => exact .inr ⟨x, rfl⟩
  | call nnn => rw [effect_call_frame]; exact .inl rfl
  | _ => exact .inl rfl

theorem effect_st (i : Instr) (s : State) : (effect i s).st = s.st ∨ ∃ x : Reg, i = .ldSTVx x := by
  cases i with
  | ldSTVx x => exact .inr ⟨x, rfl⟩
  | call nnn => rw [effect_call_frame]; exact .inl rfl
  | _ => exact .inl rfl

theorem effect_i (i : Instr) (s : State) :
    (effect i s).i = s.i ∨
      (∃ nnn : BitVec 12, i = .ldI nnn) ∨ (∃ x : Reg, i = .addIVx x) ∨ ∃ x : Reg, i = .ldFVx x := by
  cases i with
  | ldI nnn => exact .inr (.inl ⟨nnn, rfl⟩)
  | addIVx x => exact .inr (.inr (.inl ⟨x, rfl⟩))
  | ldFVx x => exact .inr (.inr (.inr ⟨x, rfl⟩))
  | call nnn => rw [effect_call_frame]; exact .inl rfl
  | _ => exact .inl rfl

theorem effect_fb (i : Instr) (s : State) :
    (effect i s).fb = s.fb ∨ i = .cls ∨ ∃ (x y : Reg) (n : BitVec 4), i = .drw x y n := by
  cases i with
  | cls => exact .inr (.inl rfl)
  | drw x y n => exact .inr (.inr ⟨x, y, n, rfl⟩)
  | call nnn => rw [effect_call_frame]; exact .inl rfl
  | _ => exact .inl rfl

end Sys2Proof.Machine

open Sys2Proof Sys2Proof.Machine

/-- Settles O57: a fault entry changes none of the pieces, and the effect of an instruction only those it is listed for
(for memory, by `exec_mem`). -/
theorem eachPieceIsWrittenByItsInstructionsOnly : Obligations.EachPieceIsWrittenByItsInstructionsOnly := by
  intro i s t h
  rcases exec_next_inv h with ⟨c, a, -, rfl⟩ | ⟨-, rfl⟩
  · simp
  · refine ⟨fun hne => ?_, (effect_dt i s).resolve_left, (effect_st i s).resolve_left, (effect_i i s).resolve_left,
      (effect_fb i s).resolve_left, fun hne => ?_⟩
    · exact (effect_stack i s).resolve_left fun ⟨hsp, hstack⟩ => hne.elim (· hsp) (· hstack)
    · obtain ⟨_, _, -, -, -, hwriter⟩ := (exec_mem h).resolve_left hne
      exact hwriter

end

section
/-! PROOF. Which registers an instruction writes (10_state.md R22). -/

namespace Sys2Proof.Machine

open Sys2Proof.Safety

theorem onlyRegs_of_v_eq {s t : State} (dst : List Reg) (h : t.v = s.v) : OnlyRegs dst s t :=
  fun r _ => getV_congr h r

theorem onlyRegs_setV (s : State) (x : Reg) (b : Byte) : OnlyRegs [x] s (advance (setV s x b)) := by
  obtain ⟨-, hregs, -⟩ := registersOnly_setV s x b
  exact hregs

theorem onlyRegs_setResultAndFlag (s : State) (x : Reg) (b : Byte) (f : Bool) :
    OnlyRegs [x, 15] s (advance (setResultAndFlag s x b f)) := by
  obtain ⟨-, hregs, -⟩ := registersOnly_setResultAndFlag s x b f
  exact hregs

/-- A block of bytes for V0 to Vx leaves the registers above Vx alone. -/
theorem onlyRegs_setVs (s : State) (x : Reg) (bs : List Byte) (h : bs.length = x.val + 1) :
    OnlyRegs ((List.finRange 16).filter fun r => r ≤ x) s (advance (setVs s bs)) := by
  intro r hr
  have hx : x < r := by simpa using hr
  rw [getV_advance, getV_setVs, List.getD_eq_default _ _ (h.trans_le hx)]

/-- An instruction's effect is on its listed registers: those of `setV`, of `setResultAndFlag`, the flag of DRW, the block
of FX65, or none. -/
theorem effect_onlyRegs (i : Instr) (s : State) : OnlyRegs (writtenRegs i) s (effect i s) := by
  cases i with
  | ldImm x nn | addImm x nn | ldReg x y | orReg x y | andReg x y | xorReg x y | ldVxDT x => exact onlyRegs_setV s x _
  | rnd x nn => exact onlyRegs_setV { s with draws := s.draws + 1 } x _
  | addReg x y | subReg x y | shr x y | subn x y | shl x y => exact onlyRegs_setResultAndFlag s x _ _
  | drw x y n => exact (frame_drawn s _ _).1
  | loadRegs x => exact onlyRegs_setVs s x _ (by simp)
  | call nnn => rw [effect_call_frame]; exact onlyRegs_of_v_eq _ rfl
  | _ => exact onlyRegs_of_v_eq _ rfl

theorem pollKey_onlyRegs (x : Reg) (s : State) : OnlyRegs [x] s (pollKey x s) := by
  rcases pollKey_cases x s with ⟨-, h⟩ | ⟨k, -, h⟩ <;> rw [h]
  · exact onlyRegs_of_v_eq _ rfl
  · exact onlyRegs_setV s x _

end Sys2Proof.Machine

open Sys2Proof Sys2Proof.Machine

/-- Settles O58: a fault entry writes no register, the effect of an instruction only those of its list, and the poll only
the destination of the wait. -/
theorem registersAreWrittenAsListed : Obligations.RegistersAreWrittenAsListed := by
  refine ⟨fun i s t h => ?_, fun x s t hs h => ?_⟩
  · rcases exec_next_inv h with ⟨c, a, -, rfl⟩ | ⟨-, rfl⟩
    · exact onlyRegs_of_v_eq _ rfl
    · exact effect_onlyRegs i s
  · simp only [cycle, hs] at h
    cases h
    exact pollKey_onlyRegs x s

end

section
/-! PROOF. Which registers an instruction reads (10_state.md R22): two runs of it from states that differ in registers
only, and agree on those it reads, agree on those it writes. -/

namespace Sys2Proof.Machine

open Sys2Proof.Safety

/-- The states differ in general registers only, and agree on those of `rs`. -/
structure AgreeOn (rs : List Reg) (s s' : State) : Prop where
  /-- Everything that is no register is the same. -/
  rest : s' = { s with v := s'.v }
  /-- The registers of `rs` are the same. -/
  regs : ∀ r ∈ rs, getV s' r = getV s r

namespace AgreeOn

theorem of_rest {s s' : State} (h : s' = { s with v := s'.v }) : AgreeOn [] s s' := ⟨h, by simp⟩

theorem advance {rs : List Reg} {s s' : State} (h : AgreeOn rs s s') : AgreeOn rs (advance s) (advance s') :=
  ⟨by rw [h.rest]; rfl, h.regs⟩

/-- Where both runs write the same byte to a register, they agree on it. -/
theorem setV {rs : List Reg} {s s' : State} (h : AgreeOn rs s s') (x : Reg) (b : Byte) :
    AgreeOn (x :: rs) (setV s x b) (setV s' x b) := by
  refine ⟨by rw [h.rest]; rfl, fun r hr => ?_⟩
  by_cases hx : r = x
  · rw [hx, getV_setV_self, getV_setV_self]
  · rw [getV_setV_of_ne s' b hx, getV_setV_of_ne s b hx, h.regs r ((List.mem_cons.mp hr).resolve_left hx)]

theorem setResultAndFlag {s s' : State} (h : AgreeOn [] s s') (x : Reg) (b : Byte) (f : Bool) :
    AgreeOn [x, 15] (setResultAndFlag s x b f) (setResultAndFlag s' x b f) := by
  obtain ⟨hrest, hregs⟩ := (h.setV x b).setV regVF (flagByte f)
  exact ⟨hrest, fun r hr => hregs r (List.Perm.mem_iff (.swap ..) |>.mp hr)⟩

/-- Where both runs load the same bytes to V0 up to Vx, they agree on those registers. -/
theorem setVs {s s' : State} (h : AgreeOn [] s s') (x : Reg) (bs : List Byte) (hlen : bs.length = x.val + 1) :
    AgreeOn ((List.finRange 16).filter fun r => r ≤ x) (setVs s bs) (setVs s' bs) := by
  refine ⟨by rw [h.rest]; rfl, fun r hr => ?_⟩
  have hx : r ≤ x := by simpa using hr
  have hr : r.val < bs.length := hlen ▸ Nat.lt_succ_of_le hx
  rw [getV_setVs, getV_setVs, List.getD_eq_getElem _ _ hr, List.getD_eq_getElem _ _ hr]

end AgreeOn

theorem valuesUpTo_congr {s s' : State} {x : Reg} (h : ∀ r ≤ x, getV s' r = getV s r) :
    valuesUpTo s' x = valuesUpTo s x := by
  refine List.ext_getElem (by simp [length_valuesUpTo]) fun k hk _ => ?_
  have hkx : k ≤ x.val := by simpa [length_valuesUpTo, Nat.lt_succ_iff] using hk
  simpa [valuesUpTo, getV] using h ⟨k, by omega⟩ hkx

/-- The operand of a shift is the register that SHIFT_SOURCE has it read. -/
theorem shiftOperand_congr {s s' : State} {x y : Reg} (hp : s'.params = s.params)
    (h : ∀ r ∈ readRegs s.params.shiftSource (.shr x y), getV s' r = getV s r) :
    shiftOperand s' x y = shiftOperand s x y := by
  unfold shiftOperand
  rw [hp]
  cases hsrc : s.params.shiftSource with
  | vx => exact h x (by simp [readRegs, hsrc])
  | vy => exact h y (by simp [readRegs, hsrc])

/-- The effect of an instruction on what it writes is a function of what it reads. -/
theorem effect_agreeOn (i : Instr) (s : State) (w : Vector Byte 16)
    (h : ∀ r ∈ readRegs s.params.shiftSource i, getV { s with v := w } r = getV s r) :
    AgreeOn (writtenRegs i) (effect i s) (effect i { s with v := w }) := by
  have start : AgreeOn [] s { s with v := w } := .of_rest rfl
  cases i with
  | seImm x nn | sneImm x nn | skp x | sknp x | ldDTVx x | ldSTVx x | addIVx x | ldFVx x | ldBVx x =>
    simp only [effect, h x (by simp [readRegs])]
    exact .of_rest rfl
  | seReg x y | sneReg x y =>
    simp only [effect, h x (by simp [readRegs]), h y (by simp [readRegs])]
    exact .of_rest rfl
  | jpV0 nnn =>
    simp only [effect, h 0 (by simp [readRegs])]
    exact .of_rest rfl
  | storeRegs x =>
    have hv : valuesUpTo { s with v := w } x = valuesUpTo s x :=
      valuesUpTo_congr fun r hr => h r (by simpa [readRegs] using hr)
    simp only [effect, hv]
    exact .of_rest rfl
  | call nnn =>
    simp only [effect]
    split_ifs <;> exact .of_rest rfl
  | ldImm x nn | ldVxDT x => exact (start.setV x _).advance
  | rnd x nn =>
    have drawn : AgreeOn [] { s with draws := s.draws + 1 } { s with v := w, draws := s.draws + 1 } := .of_rest rfl
    exact (drawn.setV x _).advance
  | addImm x nn =>
    simp only [effect, h x (by simp [readRegs])]
    exact (start.setV x _).advance
  | ldReg x y =>
    simp only [effect, h y (by simp [readRegs])]
    exact (start.setV x _).advance
  | orReg x y | andReg x y | xorReg x y =>
    simp only [effect, h x (by simp [readRegs]), h y (by simp [readRegs])]
    exact (start.setV x _).advance
  | addReg x y | subReg x y | subn x y =>
    simp only [effect, h x (by simp [readRegs]), h y (by simp [readRegs])]
    exact (start.setResultAndFlag x _ _).advance
  | shr x y | shl x y =>
    have hsrc : shiftOperand { s with v := w } x y = shiftOperand s x y := shiftOperand_congr rfl h
    simp only [effect, hsrc]
    exact (start.setResultAndFlag x _ _).advance
  | drw x y n =>
    simp only [effect, h x (by simp [readRegs]), h y (by simp [readRegs])]
    refine AgreeOn.advance (AgreeOn.setV ?_ regVF _)
    exact .of_rest rfl
  | loadRegs x => exact (start.setVs x _ (by simp)).advance
  | cls | ret | sys nnn | jp nnn | ldI nnn | ldVxK x => exact .of_rest rfl

end Sys2Proof.Machine

open Sys2Proof Sys2Proof.Machine

/-- Settles O59: no register decides whether an instruction faults, so either both runs enter the same fault, or both
have the effect of the instruction, in which `effect_agreeOn` has them agree. -/
theorem registersAreReadAsListed : Obligations.RegistersAreReadAsListed := by
  intro i s t s' t' hs hr ht ht'
  obtain ⟨w, rfl⟩ : ∃ w, s' = { s with v := w } := ⟨s'.v, hs⟩
  have same : raisedFault i { s with v := w } = raisedFault i s := raisedFault_congr i rfl rfl
  rw [exec_eq] at ht ht'
  rw [same] at ht'
  cases hf : raisedFault i s with
  | some fault =>
    simp only [hf] at ht ht'
    cases ht
    cases ht'
    exact ⟨rfl, fun _ _ hne => absurd rfl hne⟩
  | none =>
    simp only [hf] at ht ht'
    cases ht
    cases ht'
    obtain ⟨hrest, hregs⟩ := effect_agreeOn i s w hr
    exact ⟨hrest, fun r hr _ => hregs r hr⟩

end

section
/-! PROOF. The rules of memory (20_memory.md R53 to R60, R69): the raw read and write, the two-byte read, the CPU's store
path, and what a store and a fetch have to do with each other. -/

namespace Sys2Proof.Machine

theorem memWrite_of_gt (m : Memory) {a : Nat} (b : Byte) (h : 0xFFF < a) : memWrite m a b = .error a := if_pos h

theorem memWrite_ok {m m' : Memory} {a : Nat} {b : Byte} : memWrite m a b = .ok m' ↔ a ≤ 0xFFF ∧ memSet m a b = m' := by
  by_cases h : a ≤ 0xFFF
  · simp [memWrite_of_le m b h, h]
  · simp [memWrite_of_gt m b (Nat.lt_of_not_le h), h]

/-- A memory in canonical form lists no address that does not exist. -/
theorem memGet_of_gt {m : Memory} {a : Nat} (h : Memory.wf m) (ha : 0xFFF < a) : memGet m a = resetByte a :=
  memGet_of_forall_ne fun c hc e => Nat.not_le_of_lt ha (e ▸ (h.2 c hc).1)

/-- The byte of a block that stands `k` above its base. -/
theorem memGet_memSetBytes_add (m : Memory) (a k : Nat) (bs : List Byte) :
    memGet (memSetBytes m a bs) (a + k) = bs.getD k (memGet m (a + k)) := by
  rw [memGet_memSetBytes, if_pos (Nat.le_add_right a k), Nat.add_sub_cancel_left]

theorem memGet_memSetBytes_of_lt (m : Memory) {a c : Nat} (bs : List Byte) (h : c < a) :
    memGet (memSetBytes m a bs) c = memGet m c := by
  rw [memGet_memSetBytes, if_neg (Nat.not_le_of_lt h)]

/-- What FX55 answers where its block lies in program space (43_memory_block.md R150). -/
theorem exec_storeRegs_of_bounds (x : Reg) (s : State) (hlow : 0x200 ≤ s.i.toNat) (hhigh : s.i.toNat + x.val ≤ 0xFFF) :
    exec (.storeRegs x) s = .next (advance { s with mem := memSetBytes s.mem s.i.toNat (valuesUpTo s x) }) := by
  rw [exec, execStoreRegs_eq, if_neg (by omega), if_neg (by omega)]

end Sys2Proof.Machine

open Sys2Proof Sys2Proof.Machine

/-- Settles O48: up to 0xFFF the raw write is `memSet`, whose reads `memGet_memSet_self` and `memGet_memSet_of_ne` give. -/
theorem writtenByteIsReadBack : Obligations.WrittenByteIsReadBack := by
  intro m a b
  refine ⟨fun h => ⟨memSet m a b, memWrite_of_le m b h, ?_, fun c hc => ?_⟩,
    fun h => ⟨memWrite_of_gt m b h, memRead_of_gt m h⟩⟩
  · rw [memRead_of_le _ h, memGet_memSet_self]
  · exact memRead_congr (memGet_memSet_of_ne m b hc)

/-- Settles O49: the two bytes as numbers, and the lowest offending address where there are not two. -/
theorem wordReadIsBigEndian : Obligations.WordReadIsBigEndian := by
  intro m a
  refine ⟨fun h => ⟨_, _, _, memReadWord_of_le m h, memRead_of_le m (by omega), memRead_of_le m (by omega),
    toNat_wordOfBytes _ _⟩, fun h => ?_, fun h => ?_⟩
  · rw [memReadWord_of_gt m (by omega), h]
    rfl
  · rw [memReadWord_of_gt m (by omega), Nat.max_eq_left (by omega)]

/-- Settles O50, by the three ranges of the address. -/
theorem cpuStoreRefusesProtectedAddresses : Obligations.CpuStoreRefusesProtectedAddresses := fun m _ b =>
  ⟨cpuStore_of_gt m b, cpuStore_of_lt m b,
    fun hlow hhigh => ⟨_, cpuStore_of_bounds m b hlow hhigh, memWrite_of_le m b hhigh⟩⟩

/-- Settles O51: a write that answers is `memSet` at an address that exists, and up to 0xFFF `memRead` is `memGet`; above,
a memory in canonical form lists nothing, so all of them read alike. -/
theorem writesKeepTheCanonicalForm : Obligations.WritesKeepTheCanonicalForm := by
  refine ⟨fun m m' a b hwf hw => ?_, fun m m' hwf hwf' hread => memory_ext hwf hwf' fun a => ?_⟩
  · obtain ⟨ha, rfl⟩ := memWrite_ok.mp hw
    exact wf_memSet b hwf ha
  · by_cases ha : a ≤ 0xFFF
    · simpa [ha] using hread a
    · rw [memGet_of_gt hwf (by omega), memGet_of_gt hwf' (by omega)]

/-- Settles O52: after the store PC is I, where V0 stands, with V1 above it. -/
theorem storedWordIsFetchedNext : Obligations.StoredWordIsFetchedNext := by
  intro x s t hx hlow hhigh hpc h
  rw [exec_storeRegs_of_bounds x s hlow hhigh] at h
  cases h
  have hnpc : npc s = s.i := hpc.symm
  have hbyte : ∀ k : Reg, k ≤ x →
      memGet (memSetBytes s.mem s.i.toNat (valuesUpTo s x)) (s.i.toNat + k.val) = getV s k := fun k hk => by
    rw [memGet_memSetBytes_add, getD_valuesUpTo s x k hk]
  rw [fetch, advance_pc, advance_mem]
  change memReadWord _ (npc s).toNat = _
  rw [hnpc, memReadWord_of_le _ (by omega)]
  exact congrArg Except.ok (congrArg₂ wordOfBytes (hbyte 0 (Fin.zero_le x)) (hbyte 1 hx))

/-- Settles O47: memory lists nothing at reset, so each of the 80 addresses reads as the fontset's byte. -/
theorem fontsetStandsAtReset : Obligations.FontsetStandsAtReset := by
  unfold Obligations.FontsetStandsAtReset
  decide

end

section
/-! PROOF. What a Cycle does to memory: nothing, or a block of bytes stored within program space, so no byte below 0x200
changes (20_memory.md R51, R60). -/

namespace Sys2Proof.Machine

/-- What a Cycle does to memory, said once: only an instruction writes it, as `exec_mem` says. -/
theorem cycle_mem {s t : State} (h : cycle s = .next t) :
    t.mem = s.mem ∨
      ∃ (a : Nat) (bs : List Byte), 0x200 ≤ a ∧ a + bs.length ≤ 0x1000 ∧ t.mem = memSetBytes s.mem a bs := by
  rcases cycle_cases h with ⟨-, rfl⟩ | ⟨x, -, rfl⟩ | ⟨-, ⟨c, w, a, -, rfl⟩ | ⟨w, i, -, -, hexec⟩⟩
  · exact .inl rfl
  · rw [pollKey_frame x s]
    exact .inl rfl
  · exact .inl rfl
  · exact (exec_mem hexec).imp_right fun ⟨a, bs, hlow, hhigh, hmem, _⟩ => ⟨a, bs, hlow, hhigh, hmem⟩

end Sys2Proof.Machine

open Sys2Proof Sys2Proof.Machine

/-- Settles O55: a block that a Cycle stores starts at 0x200 or above. -/
theorem noCycleWritesBelow0x200 : Obligations.NoCycleWritesBelow0x200 := by
  intro s t h a ha
  rcases cycle_mem h with hmem | ⟨base, bs, hlow, -, hmem⟩
  · rw [hmem]
  · rw [hmem]
    exact memRead_congr (memGet_memSetBytes_of_lt s.mem bs (by omega))

end

section
/-! PROOF. Every step keeps the invariant. Each of its four parts has its own reason: memory is written in blocks within
program space (20_memory.md R51, R60); an instruction that was fetched stands at 0xFFE or below (60_exceptions.md R201), which
bounds where it can go and what it can push (10_state.md R28; 40_control_flow.md R101); a fault is entered from RUNNING, by a
cycle-fault cause (10_state.md R41; 60_exceptions.md R204). -/

namespace Sys2Proof.Machine

open Sys2Proof.Safety

/-! ## Memory -/

theorem memoryOk_of_memSetBytes {s t : State} {a : Nat} {bs : List Byte} (h : MemoryOk s) (hlow : 0x200 ≤ a)
    (hhigh : a + bs.length ≤ 0x1000) (hmem : t.mem = memSetBytes s.mem a bs) : MemoryOk t := by
  obtain ⟨hwf, hprotected⟩ := h
  rw [MemoryOk, hmem]
  refine ⟨wf_memSetBytes hwf hhigh, fun c hc => ?_⟩
  rcases mem_memSetBytes hc with hc | ⟨hc, -⟩
  · exact hprotected c hc
  · exact hlow.trans hc

theorem cycle_keeps_memoryOk {s t : State} (h : MemoryOk s) (hc : cycle s = .next t) : MemoryOk t := by
  rcases cycle_mem hc with hmem | ⟨a, bs, hlow, hhigh, hmem⟩
  · rwa [MemoryOk, hmem]
  · exact memoryOk_of_memSetBytes h hlow hhigh hmem

/-! ## PC and the stack -/

/-- An instruction that was fetched stands at 0xFFE or below (60_exceptions.md R201). -/
theorem pc_le_of_fetch_ok {s : State} {w : Word} (h : fetch s = .ok w) : s.pc.toNat ≤ 0xFFE := (memReadWord_ok.mp h).1

theorem toNat_npc {s : State} (h : s.pc.toNat ≤ 0xFFE) : (npc s).toNat = s.pc.toNat + 2 := by
  simp only [npc, BitVec.toNat_add, BitVec.toNat_ofNat]
  omega

theorem toNat_addressOf (nnn : BitVec 12) : (addressOf nnn).toNat = nnn.toNat := by
  simp only [addressOf, BitVec.toNat_setWidth]
  omega

theorem advance_pcOk {s : State} (h : s.pc.toNat ≤ 0xFFE) : PcOk (advance s) := by
  rw [PcOk, advance_pc, toNat_npc h]
  omega

theorem skipIf_pcOk {s : State} (h : s.pc.toNat ≤ 0xFFE) (taken : Bool) : PcOk (skipIf s taken) := by
  have hnpc := toNat_npc h
  rw [PcOk, skipIf_pc]
  split
  · simp only [BitVec.toNat_add, BitVec.toNat_ofNat]
    omega
  · omega

/-- Where an instruction goes: past itself, past the next, to a 12-bit address, to one plus a byte, or to a live return
address. -/
theorem effect_pcOk {i : Instr} {s : State} (hpc : s.pc.toNat ≤ 0xFFE) (hstack : StackOk s)
    (hf : raisedFault i s = none) : PcOk (effect i s) := by
  have hjump : ∀ nnn : BitVec 12, (addressOf nnn).toNat ≤ 0xFFF := fun nnn => by
    rw [toNat_addressOf]
    omega
  cases i with
  | ret =>
    have hpos : 0 < s.sp.val := by
      by_contra hzero
      simp [raisedFault, hzero] at hf
    have hret := (hstack ⟨s.sp.val - 1, by omega⟩ (Nat.sub_one_lt_of_lt hpos)).2
    exact hret.trans (by decide)
  | sys nnn => exact hpc.trans (by decide)
  | jp nnn => exact (hjump nnn).trans (by decide)
  | call nnn =>
    simp only [effect]
    split_ifs
    · exact (hjump nnn).trans (by decide)
    · exact hpc.trans (by decide)
  | jpV0 nnn =>
    have := hjump nnn
    simp only [effect, PcOk, jumpTo_pc, BitVec.toNat_add, BitVec.toNat_setWidth]
    omega
  | seImm x nn | sneImm x nn | seReg x y | sneReg x y | skp x | sknp x => exact skipIf_pcOk hpc _
  | _ => exact advance_pcOk hpc

/-- What an instruction leaves on the stack: what was there, or all but the youngest return address, or one more, the
address after a CALL. -/
theorem effect_stackOk {i : Instr} {s : State} (hpc : s.pc.toNat ≤ 0xFFE) (h : StackOk s) : StackOk (effect i s) := by
  rcases effect_stack i s with ⟨hsp, hstack⟩ | rfl | ⟨nnn, rfl⟩
  · rwa [StackOk, hsp, hstack]
  · exact fun k hk => h k (Nat.lt_of_lt_of_le hk (Nat.sub_le _ 1))
  · simp only [effect]
    split_ifs with hroom
    · intro k hk
      have hpushed := toNat_npc hpc
      by_cases htop : s.sp.val = k.val
      · simp only [htop, Fin.getElem_fin, Vector.getElem_set_self]
        omega
      · have hlive : k.val < s.sp.val := Nat.lt_of_le_of_ne (Nat.le_of_lt_succ hk) (Ne.symm htop)
        simpa [htop] using h k hlive
    · exact h

theorem exec_keeps_pcOk {i : Instr} {s t : State} (hpc : s.pc.toNat ≤ 0xFFE) (hstack : StackOk s)
    (hexec : exec i s = .next t) : PcOk t := by
  rcases exec_next_inv hexec with ⟨c, a, -, rfl⟩ | ⟨hf, rfl⟩
  · exact hpc.trans (by decide)
  · exact effect_pcOk hpc hstack hf

theorem exec_keeps_stackOk {i : Instr} {s t : State} (hpc : s.pc.toNat ≤ 0xFFE) (hstack : StackOk s)
    (hexec : exec i s = .next t) : StackOk t := by
  rcases exec_next_inv hexec with ⟨c, a, -, rfl⟩ | ⟨-, rfl⟩
  · exact hstack
  · exact effect_stackOk hpc hstack

/-! ## The fault record -/

theorem enterFault_faultOk (s : State) {c : Cause} (w : Word) (a : Nat) (h : c ≠ .programTooLarge) :
    FaultOk (enterFault s c w a) := by
  simp [FaultOk, h]

/-- Away from FAULTED the record is legal exactly when it is empty. -/
theorem faultOk_iff_of_ne {s : State} (h : s.status ≠ .faulted) : FaultOk s ↔ s.record.cause = none := by
  simp +contextual [FaultOk, h]

/-- An instruction raises no ProgramTooLarge, which is no cycle fault (60_exceptions.md R203). -/
theorem Raises.ne_programTooLarge {i : Instr} {s : State} {c : Cause} (h : Raises i s c) : c ≠ .programTooLarge := by
  rintro rfl
  cases i <;> simp [Raises] at h

theorem Completes.faultOk {i : Instr} {s t : State} (h : Completes i s t) (hs : s.status ≠ .faulted) (hf : FaultOk s) :
    FaultOk t := by
  have ht : t.status ≠ .faulted := by
    rcases h.status with e | ⟨x, -, e⟩
    · rwa [e]
    · rw [e]
      exact Status.noConfusion
  rw [faultOk_iff_of_ne ht, h.record]
  exact (faultOk_iff_of_ne hs).mp hf

theorem exec_keeps_faultOk {i : Instr} {s t : State} (h : FaultOk s) (hs : s.status ≠ .faulted)
    (hexec : exec i s = .next t) : FaultOk t := by
  rcases exec_inv hexec with ⟨c, a, hraises, rfl⟩ | hc
  · exact enterFault_faultOk s _ a hraises.ne_programTooLarge
  · exact hc.faultOk hs h

theorem pollKey_keeps_faultOk {x : Reg} {s : State} (h : FaultOk s) (hs : s.status ≠ .faulted) :
    FaultOk (pollKey x s) := by
  rcases pollKey_cases x s with ⟨-, e⟩ | ⟨k, -, e⟩
  · rwa [e]
  · rw [e, faultOk_iff_of_ne Status.noConfusion]
    exact (faultOk_iff_of_ne hs).mp h

/-! ## The operations of the host -/

theorem inv_resetOp (s : State) : Inv (resetOp s) := by
  refine ⟨⟨wf_nil, fun _ h => absurd h List.not_mem_nil⟩, ?_, fun k hk => absurd hk (Nat.not_lt_zero k), ?_⟩
  · exact (by decide : State.reset.pc.toNat ≤ 0x10FE)
  · rw [faultOk_iff_of_ne Status.noConfusion]
    rfl

/-- The invariant does not speak of what `takeOp` writes. -/
theorem inv_takeOp {s : State} (h : Inv s) : Inv (takeOp s) := by
  simpa [Safety.Inv, MemoryOk, PcOk, StackOk, FaultOk] using h

theorem cycle_keeps_inv {s t : State} (h : Inv s) (hc : cycle s = .next t) : Inv t := by
  obtain ⟨hmem, hpc, hstack, hfault⟩ := h
  refine ⟨cycle_keeps_memoryOk hmem hc, ?_⟩
  rcases cycle_cases hc with ⟨-, rfl⟩ | ⟨x, hs, rfl⟩ | ⟨hs, ⟨c, w, a, hcause, rfl⟩ | ⟨w, i, hfetch, -, hexec⟩⟩
  · exact ⟨hpc, hstack, hfault⟩
  · refine ⟨?_, ?_, pollKey_keeps_faultOk hfault (by simp [hs])⟩ <;> rw [pollKey_frame x s]
    · exact hpc
    · exact hstack
  · exact ⟨hpc, hstack, enterFault_faultOk s w a hcause⟩
  · have hlow := pc_le_of_fetch_ok hfetch
    exact ⟨exec_keeps_pcOk hlow hstack hexec, exec_keeps_stackOk hlow hstack hexec,
      exec_keeps_faultOk hfault (by simp [hs]) hexec⟩

theorem serve_keeps_inv {op : Config.HostOp} {s t : State} (h : Inv s) (hs : serve op s = .next t) : Inv t := by
  cases op with
  | reset => cases hs; exact inv_resetOp s
  | loadProgram bytes =>
    rcases serveLoad_next hs with ⟨-, rfl | ⟨hlen, rfl⟩⟩
    · exact h
    · obtain ⟨hmem, hrest⟩ := h
      exact ⟨memoryOk_of_memSetBytes hmem (Nat.le_refl 0x200) (by omega) rfl, hrest⟩
  | cycle => exact cycle_keeps_inv h hs
  | tickTimers | setKey k pressed | observe => cases hs; exact h

end Sys2Proof.Machine

open Sys2Proof Sys2Proof.Machine

/-- Settles O54: a step takes the host's next operation, which the invariant does not speak of, and serves it; every
operation keeps the invariant, a Cycle part by part. -/
theorem everyStepKeepsTheInvariant : Obligations.EveryStepKeepsTheInvariant := fun _ _ h hstep =>
  serve_keeps_inv (inv_takeOp h) hstep

end

section
/-! PROOF. Decoder and encoder agree (30_encoding.md R81, R83, R84), and the decoder refuses what R90 lists. The decoder
is walked through once, in `decodeWord_reads`: each of its arms builds the word back from the fields that it read. -/

namespace Sys2Proof

open Sys2Proof.Safety

/-! ## SYS and the two words that are not its own -/

/-- SYS is well formed exactly when its word is one of R91. -/
theorem wellFormed_sys_iff (nnn : BitVec 12) : (Instr.sys nnn).wellFormed = true ↔ SysWord (encode (.sys nnn)) := by
  have hle : nnn.toNat ≤ 0x0FFF := Nat.le_of_lt_succ nnn.isLt
  simp [Instr.wellFormed, sysIsNotCls, sysIsNotRet, SysWord, encode, ← BitVec.toNat_inj, toNat_formatNNN, hle]

theorem decodeWord_sysWord {w : Word} (h : SysWord w) : decodeWord w = .ok (.sys (fieldNNN w)) := by
  obtain ⟨hlow, hcls, hret⟩ := h
  have hop : (fieldOp w).toNat = 0x0 := by
    rw [toNat_fieldOp]
    omega
  simp only [decodeWord, hop, decodeClass0, if_neg hcls, if_neg hret]

/-! ## The list of R90 -/

/-- The list of R90 by the fields that the decoder reads. -/
theorem unassigned_iff_fields (w : Word) : Unassigned w ↔
    ((fieldOp w).toNat = 0x5 ∧ fieldN w ≠ 0#4) ∨
    ((fieldOp w).toNat = 0x8 ∧ ((8 ≤ (fieldN w).toNat ∧ (fieldN w).toNat ≤ 0xD) ∨ (fieldN w).toNat = 0xF)) ∨
    ((fieldOp w).toNat = 0x9 ∧ fieldN w ≠ 0#4) ∨
    ((fieldOp w).toNat = 0xE ∧ fieldNN w ≠ 0x9E#8 ∧ fieldNN w ≠ 0xA1#8) ∨
    ((fieldOp w).toNat = 0xF ∧
      fieldNN w ∉ [0x07#8, 0x0A#8, 0x15#8, 0x18#8, 0x1E#8, 0x29#8, 0x33#8, 0x55#8, 0x65#8]) := by
  simp [Unassigned, ← BitVec.toNat_inj, toNat_fieldOp, toNat_fieldN, toNat_fieldNN]

/-- The decoder refuses each of the five parts of the list. -/
theorem decodeWord_unassigned {w : Word} (h : Unassigned w) : decodeWord w = .error (.unknownInstruction w) := by
  rcases (unassigned_iff_fields w).mp h with ⟨hop, hn⟩ | ⟨hop, hn⟩ | ⟨hop, hn⟩ | ⟨hop, h9E, hA1⟩ | ⟨hop, hnn⟩ <;>
    simp only [decodeWord, hop]
  · exact if_neg hn
  · unfold decodeClass8
    split
    case h_10 => rfl
    all_goals omega
  · exact if_neg hn
  · simp only [decodeClassE, if_neg h9E, if_neg hA1]
  · simp only [List.mem_cons, List.not_mem_nil, or_false, not_or] at hnn
    simp [decodeClassF, hnn]

/-! ## The word that an instruction is read from -/

theorem formatNNN_of_op {w : Word} {op : BitVec 4} (h : (fieldOp w).toNat = op.toNat) :
    formatNNN op (fieldNNN w) = w := by
  rw [← BitVec.eq_of_toNat_eq h, formatNNN_fields]

theorem formatXNN_of_op {w : Word} {op : BitVec 4} (h : (fieldOp w).toNat = op.toNat) :
    formatXNN op (fieldX w) (fieldNN w) = w := by
  rw [← BitVec.eq_of_toNat_eq h, formatXNN_fields]

theorem formatXNN_of_op_of_last {w : Word} {op : BitVec 4} {nn : Byte} (h : (fieldOp w).toNat = op.toNat)
    (hnn : fieldNN w = nn) : formatXNN op (fieldX w) nn = w := by
  rw [← hnn, formatXNN_of_op h]

theorem formatXYN_of_op {w : Word} {op : BitVec 4} (h : (fieldOp w).toNat = op.toNat) :
    formatXYN op (fieldX w) (fieldY w) (fieldN w) = w := by
  rw [← BitVec.eq_of_toNat_eq h, formatXYN_fields]

theorem formatXYN_of_op_of_last {w : Word} {op n : BitVec 4} (h : (fieldOp w).toNat = op.toNat)
    (hn : (fieldN w).toNat = n.toNat) : formatXYN op (fieldX w) (fieldY w) n = w := by
  rw [← BitVec.eq_of_toNat_eq hn, formatXYN_of_op h]

/-- What a decoder may answer for a word: a well-formed instruction whose word it is, or a refusal of an unassigned
word. -/
inductive Reads (w : Word) : Except Reject Instr → Prop where
  /-- An instruction, and the word is its encoding. -/
  | instr {i : Instr} (word : encode i = w) (wellFormed : i.wellFormed = true) : Reads w (.ok i)
  /-- A refusal that names the word. -/
  | refusal (unassigned : Unassigned w) : Reads w (.error (.unknownInstruction w))

theorem decodeClass0_reads {w : Word} (h : (fieldOp w).toNat = 0x0) : Reads w (.ok (decodeClass0 w)) := by
  unfold decodeClass0
  split_ifs with hcls hret
  · exact .instr hcls.symm rfl
  · exact .instr hret.symm rfl
  · have hword : encode (.sys (fieldNNN w)) = w := formatNNN_of_op h
    have hlow : w.toNat ≤ 0x0FFF := by
      rw [toNat_fieldOp] at h
      omega
    exact .instr hword ((wellFormed_sys_iff _).mpr (hword.symm ▸ ⟨hlow, hcls, hret⟩))

theorem decodeClass8_reads {w : Word} (h : (fieldOp w).toNat = 0x8) : Reads w (decodeClass8 w) := by
  unfold decodeClass8
  split
  case h_10 =>
    simp only [imp_false] at *
    exact .refusal ((unassigned_iff_fields w).mpr (.inr (.inl ⟨h, by omega⟩)))
  all_goals
    rename_i hn
    exact .instr (formatXYN_of_op_of_last h hn) rfl

theorem decodeClassE_reads {w : Word} (h : (fieldOp w).toNat = 0xE) : Reads w (decodeClassE w) := by
  unfold decodeClassE
  split_ifs with h9E hA1
  · exact .instr (formatXNN_of_op_of_last h h9E) rfl
  · exact .instr (formatXNN_of_op_of_last h hA1) rfl
  · exact .refusal ((unassigned_iff_fields w).mpr (.inr (.inr (.inr (.inl ⟨h, h9E, hA1⟩)))))

theorem decodeClassF_reads {w : Word} (h : (fieldOp w).toNat = 0xF) : Reads w (decodeClassF w) := by
  unfold decodeClassF
  split_ifs
  case neg => exact .refusal ((unassigned_iff_fields w).mpr (.inr (.inr (.inr (.inr ⟨h, by simp [*]⟩)))))
  all_goals
    rename_i hnn
    exact .instr (formatXNN_of_op_of_last h hnn) rfl

/-- Everything the decoder can answer, by the leading nibble of the word. -/
theorem decodeWord_reads (w : Word) : Reads w (decodeWord w) := by
  unfold decodeWord
  split
  next h => exact decodeClass0_reads h
  next h => exact .instr (formatNNN_of_op h) rfl
  next h => exact .instr (formatNNN_of_op h) rfl
  next h => exact .instr (formatXNN_of_op h) rfl
  next h => exact .instr (formatXNN_of_op h) rfl
  next h =>
    split_ifs with hn
    · exact .instr (formatXYN_of_op_of_last h (congrArg BitVec.toNat hn)) rfl
    · exact .refusal ((unassigned_iff_fields w).mpr (.inl ⟨h, hn⟩))
  next h => exact .instr (formatXNN_of_op h) rfl
  next h => exact .instr (formatXNN_of_op h) rfl
  next h => exact decodeClass8_reads h
  next h =>
    split_ifs with hn
    · exact .instr (formatXYN_of_op_of_last h (congrArg BitVec.toNat hn)) rfl
    · exact .refusal ((unassigned_iff_fields w).mpr (.inr (.inr (.inl ⟨h, hn⟩))))
  next h => exact .instr (formatNNN_of_op h) rfl
  next h => exact .instr (formatNNN_of_op h) rfl
  next h => exact .instr (formatXNN_of_op h) rfl
  next h => exact .instr (formatXYN_of_op h) rfl
  next h => exact decodeClassE_reads h
  next =>
    simp only [imp_false] at *
    exact decodeClassF_reads (by omega)

end Sys2Proof

open Sys2Proof Sys2Proof.Safety

/-- Settles O1, by the formats of R81: the decoder reads the operands as the fields of the format, the row by its leading
nibble and, in classes 5, 8, 9, E and F, by its last nibble or byte. -/
theorem encodeThenDecodeGivesInstructionBack : Obligations.EncodeThenDecodeGivesInstructionBack := by
  intro i hwf
  cases i with
  | cls | ret => rfl
  | sys nnn =>
    rw [decodeWord_sysWord ((wellFormed_sys_iff nnn).mp hwf), encode, fieldNNN_formatNNN]
  | jp nnn | call nnn | ldI nnn | jpV0 nnn => simp [encode, decodeWord]
  | seImm x nn | sneImm x nn | ldImm x nn | addImm x nn | rnd x nn => simp [encode, decodeWord]
  | seReg x y | sneReg x y | drw x y n => simp [encode, decodeWord]
  | ldReg x y | orReg x y | andReg x y | xorReg x y | addReg x y | subReg x y | shr x y | subn x y | shl x y =>
    simp [encode, decodeWord, decodeClass8]
  | skp x | sknp x => simp [encode, decodeWord, decodeClassE]
  | ldVxDT x | ldVxK x | ldDTVx x | ldSTVx x | addIVx x | ldFVx x | ldBVx x | storeRegs x | loadRegs x =>
    simp [encode, decodeWord, decodeClassF]

/-- Settles O2: each arm of the decoder reads the fields that build the word back. -/
theorem decodeThenEncodeGivesWordBack : Obligations.DecodeThenEncodeGivesWordBack := by
  intro w i h
  have hreads := decodeWord_reads w
  rw [h] at hreads
  cases hreads with
  | instr hword hwf => exact ⟨hword, hwf⟩

/-- Settles O3: the words of R90 are refused part by part, and an arm that refuses a word is one for a word of R90. -/
theorem decoderRefusesExactlyUnassignedWords : Obligations.DecoderRefusesExactlyUnassignedWords := by
  refine fun w => ⟨decodeWord_unassigned, fun hassigned => ?_⟩
  cases hd : decodeWord w with
  | ok i => exact ⟨i, rfl⟩
  | error e =>
    have hreads := decodeWord_reads w
    rw [hd] at hreads
    cases hreads with
    | refusal hunassigned => exact absurd hunassigned hassigned

/-- Settles O4: each word as the decoder reads it. -/
theorem wordsWrittenFromTheEncodingTableDecode : Obligations.WordsWrittenFromTheEncodingTableDecode := by
  unfold Obligations.WordsWrittenFromTheEncodingTableDecode
  decide

end

section
/-! PROOF. The two ways to UnknownInstruction (30_encoding.md R90, R91): the decoder refuses the word, or SYS, which the
word decodes to, always raises. -/

namespace Sys2Proof.Machine

/-- A Cycle runs what is decoded (60_exceptions.md R202). -/
theorem cycle_of_decoded {s : State} {w : Word} {i : Instr} (hs : s.status = .running) (hf : fetch s = .ok w)
    (hd : decodeWord w = .ok i) : cycle s = exec i s := by
  simp only [cycle, hs, runInstruction, hf, hd]

/-- A Cycle on a refused word (60_exceptions.md R202). -/
theorem cycle_of_refused {s : State} {w : Word} {e : Reject} (hs : s.status = .running) (hf : fetch s = .ok w)
    (hd : decodeWord w = .error e) : cycle s = .next (enterFault s .unknownInstruction w 0) := by
  simp only [cycle, hs, runInstruction, hf, hd]

end Sys2Proof.Machine

open Sys2Proof Sys2Proof.Machine

/-- Settles O8: both ways enter the same fault; that SYS records the word fetched is the round trip of O2. -/
theorem unassignedAndSysWordsRaiseUnknownInstruction : Obligations.UnassignedAndSysWordsRaiseUnknownInstruction := by
  rintro s w hs hf (hunassigned | hsys)
  · exact cycle_of_refused hs hf (decodeWord_unassigned hunassigned)
  · have hd := decodeWord_sysWord hsys
    obtain ⟨hword, -⟩ := decodeThenEncodeGivesWordBack w _ hd
    rw [cycle_of_decoded hs hf hd, exec, execSys, raise, hword, enterFault]

end

section
/-! PROOF. The control-flow instructions (40_control_flow.md): where each moves PC, what CALL and RET do to the stack, and
the words that the faults of SYS and CALL record. -/

namespace Sys2Proof.Machine

open Sys2Proof.Safety

/-! ## Moving PC and nothing else -/

theorem pcOnly_jumpTo (s : State) (target : Word) : PcOnly target s (jumpTo s target) := ⟨rfl, fun _ => rfl, rfl⟩

/-- A skip passes over one instruction when its condition holds (00_scope.md R15). -/
theorem pcOnly_skipIf (s : State) {taken : Bool} {p : Prop} [Decidable p] (h : taken = true ↔ p) :
    PcOnly (if p then s.pc + 4#16 else s.pc + 2#16) s (skipIf s taken) := by
  refine ⟨?_, fun _ => rfl, rfl⟩
  have hskip : s.pc + 2#16 + 2#16 = s.pc + 4#16 := BitVec.add_assoc s.pc 2#16 2#16
  simp only [skipIf_pc, npc, h, hskip]

theorem toNat_addressOf_add_byte (nnn : BitVec 12) (b : Byte) :
    (addressOf nnn + b.setWidth 16).toNat = nnn.toNat + b.toNat := by
  simp only [BitVec.toNat_add, BitVec.toNat_setWidth, toNat_addressOf]
  omega

/-! ## The words of SYS and CALL as numbers -/

theorem encode_sys (nnn : BitVec 12) : encode (.sys nnn) = nnn.setWidth 16 := by
  apply BitVec.eq_of_toNat_eq
  rw [encode, toNat_formatNNN, BitVec.toNat_setWidth]
  simp only [BitVec.toNat_ofNat]
  omega

theorem encode_call (nnn : BitVec 12) : encode (.call nnn) = BitVec.ofNat 16 (0x2000 + nnn.toNat) := by
  apply BitVec.eq_of_toNat_eq
  rw [encode, toNat_formatNNN]
  simp only [BitVec.toNat_ofNat]
  omega

/-! ## The stack instructions -/

theorem exec_ret_of_empty {s : State} (h : s.sp.val = 0) : exec .ret s = raise s .stackUnderflow .ret 0 := by
  rw [exec, execRet_eq, dif_neg (by omega)]

theorem exec_ret_of_pos {s : State} (h : 0 < s.sp.val) : exec .ret s = .next (effect .ret s) := by
  rw [exec, execRet_eq, dif_pos h, effect]

theorem exec_call_of_full (nnn : BitVec 12) {s : State} (h : s.sp.val = 16) :
    exec (.call nnn) s = raise s .stackOverflow (.call nnn) 0 := by
  rw [exec, execCall_eq, dif_neg (by omega)]

theorem exec_call_of_room (nnn : BitVec 12) {s : State} (h : s.sp.val < 16) :
    exec (.call nnn) s = .next { s with
      stack := s.stack.set s.sp.val (npc s)
      sp := ⟨s.sp.val + 1, Nat.succ_lt_succ h⟩
      pc := addressOf nnn } := by
  rw [exec, execCall_eq, dif_pos h]

end Sys2Proof.Machine

open Sys2Proof Sys2Proof.Machine

/-- Settles O14: SYS raises, and its word is the 12-bit address widened. -/
theorem sysRaisesUnknownInstruction : Obligations.SysRaisesUnknownInstruction := by
  intro nnn s
  rw [exec, execSys, raise, encode_sys, enterFault]

/-- Settles O15, by whether the stack holds a return address; the popped slot is the one below SP. -/
theorem returnPopsPcOrUnderflows : Obligations.ReturnPopsPcOrUnderflows := by
  refine fun s => ⟨exec_ret_of_empty, fun hpos => ?_⟩
  have hslot : s.sp.val - 1 < 16 := by omega
  exact ⟨_, exec_ret_of_pos hpos, Nat.sub_add_cancel hpos, Vector.getElem?_eq_getElem hslot, fun _ => rfl, rfl⟩

/-- Settles O16: the target is the 12-bit address widened. -/
theorem jumpMovesPc : Obligations.JumpMovesPc := fun nnn s =>
  ⟨jumpTo s (addressOf nnn), rfl, toNat_addressOf nnn, pcOnly_jumpTo s _⟩

/-- Settles O17, by whether the stack has room; a push writes the slot at SP and no other. -/
theorem callPushesReturnAddressOrOverflows : Obligations.CallPushesReturnAddressOrOverflows := by
  refine fun nnn s => ⟨fun hfull => ?_, fun hroom => ?_⟩
  · rw [exec_call_of_full nnn hfull, raise, encode_call, enterFault]
  · exact ⟨_, exec_call_of_room nnn hroom, rfl, Vector.getElem?_set_self hroom,
      fun k hk => Vector.getElem?_set_ne hroom hk.symm, toNat_addressOf nnn, fun _ => rfl, rfl⟩

/-- Settles O18: both are skips, on the comparison and on its negation. -/
theorem skipsCompareRegisterWithImmediate : Obligations.SkipsCompareRegisterWithImmediate := fun _ _ s =>
  ⟨⟨_, rfl, pcOnly_skipIf s beq_iff_eq⟩, ⟨_, rfl, pcOnly_skipIf s bne_iff_ne⟩⟩

/-- Settles O19: both are skips, on the comparison and on its negation. -/
theorem skipsCompareTwoRegisters : Obligations.SkipsCompareTwoRegisters := fun _ _ s =>
  ⟨⟨_, rfl, pcOnly_skipIf s beq_iff_eq⟩, ⟨_, rfl, pcOnly_skipIf s bne_iff_ne⟩⟩

/-- Settles O20: a 12-bit address plus a byte stays below 2^16, so the sum is not reduced. -/
theorem jumpPlusV0AddsWithoutWrap : Obligations.JumpPlusV0AddsWithoutWrap := fun nnn s =>
  ⟨jumpTo s _, rfl, toNat_addressOf_add_byte nnn (getV s 0), pcOnly_jumpTo s _⟩

end

section
/-! PROOF. The register arithmetic and logic instructions (41_arith_logic.md): what each result and each flag is as a
number. The frames are those of an instruction that writes one register, or one register and the flag. -/

namespace Sys2Proof.Machine

open Sys2Proof.Safety

/-! ## Results as numbers -/

theorem toNat_addByte (a b : Byte) : (addByte a b).toNat = (a.toNat + b.toNat) % 256 := BitVec.toNat_ofNat _ 8

theorem toNat_subByte (a b : Byte) : ((subByte a b).toNat : Int) = (a.toNat - b.toNat : Int) % 256 := by
  simp only [subByte, BitVec.toNat_ofNat]
  omega

theorem toNat_shiftRight_one (b : Byte) : (b >>> 1).toNat = b.toNat / 2 := by
  rw [BitVec.toNat_ushiftRight, Nat.shiftRight_one]

theorem toNat_shiftLeft_one (b : Byte) : (b <<< 1).toNat = b.toNat * 2 % 256 := by
  rw [BitVec.toNat_shiftLeft, Nat.shiftLeft_eq, pow_one]

/-! ## Flags as numbers -/

theorem flagByte_decide (p : Prop) [Decidable p] : flagByte (decide p) = if p then 0x01#8 else 0x00#8 := by
  simp only [flagByte, decide_eq_true_eq]

/-- The flag that reports bit `k` of a byte is that bit as a number. -/
theorem toNat_flagByte_getLsbD (b : Byte) (k : Nat) : (flagByte (b.getLsbD k)).toNat = b.toNat / 2 ^ k % 2 := by
  have hflag : ∀ f : Bool, (flagByte f).toNat = f.toNat := by decide
  rw [hflag, BitVec.getLsbD, Nat.toNat_testBit]

theorem toNat_flagByte_bitOutRight (b : Byte) : (flagByte (bitOutRight b)).toNat = b.toNat % 2 := by
  rw [bitOutRight, toNat_flagByte_getLsbD, pow_zero, Nat.div_one]

/-- Bit 7 is the last bit of a byte, so what is left above it is that bit. -/
theorem toNat_flagByte_bitOutLeft (b : Byte) : (flagByte (bitOutLeft b)).toNat = b.toNat / 128 := by
  rw [bitOutLeft, toNat_flagByte_getLsbD]
  omega

/-! ## The operand of a shift -/

theorem shiftOperand_eq (s : State) (x y : Reg) :
    shiftOperand s x y = if s.params.shiftSource = .vy then getV s y else getV s x := by
  unfold shiftOperand
  cases s.params.shiftSource <;> rfl

/-! ## The subtraction of SUB and SUBN -/

/-- The difference stands in V[x] where the flag, the not-borrow, does not overwrite it (R128, R130). -/
theorem difference_and_noBorrow (s : State) (x : Reg) (a b : Byte) {t : State}
    (ht : advance (setResultAndFlag s x (subByte a b) (noBorrow a b)) = t) :
    (x ≠ 15 → ((getV t x).toNat : Int) = (a.toNat - b.toNat : Int) % 256) ∧
      getV t 15 = (if a.toNat ≥ b.toNat then 0x01#8 else 0x00#8) ∧ RegistersOnly [x, 15] (s.pc + 2#16) s t := by
  subst ht
  refine ⟨fun hx => ?_, ?_, registersOnly_setResultAndFlag s x _ _⟩
  · rw [getV_advance, getV_setResultAndFlag_dst s _ _ hx, toNat_subByte]
  · rw [getV_advance, getV_setResultAndFlag_vf, noBorrow, flagByte_decide]

end Sys2Proof.Machine

open Sys2Proof Sys2Proof.Machine

/-- Settles O21: both write one register. -/
theorem loadsWriteRegister : Obligations.LoadsWriteRegister := fun x _ _ s =>
  ⟨⟨_, rfl, getV_setV_self s x _, registersOnly_setV s x _⟩, ⟨_, rfl, getV_setV_self s x _, registersOnly_setV s x _⟩⟩

/-- Settles O22: `addByte` is the sum modulo 256. -/
theorem addImmediateWrapsWithoutFlag : Obligations.AddImmediateWrapsWithoutFlag := by
  refine fun x nn s => ⟨_, rfl, ?_, registersOnly_setV s x _⟩
  rw [getV_advance, getV_setV_self, toNat_addByte]

/-- Settles O23: V[x] receives the bit vectors' own OR, AND and XOR, which are bit by bit. -/
theorem bitwiseOperationsWriteNoFlag : Obligations.BitwiseOperationsWriteNoFlag := by
  refine fun x y s => ⟨⟨_, rfl, fun k => ?_, registersOnly_setV s x _⟩, ⟨_, rfl, fun k => ?_, registersOnly_setV s x _⟩,
    ⟨_, rfl, fun k => ?_, registersOnly_setV s x _⟩⟩ <;> rw [getV_advance, getV_setV_self]
  · exact BitVec.getLsbD_or
  · exact BitVec.getLsbD_and
  · exact BitVec.getLsbD_xor

/-- Settles O24: the sum modulo 256 stands in V[x] where the flag does not overwrite it. -/
theorem addRegistersReportsCarry : Obligations.AddRegistersReportsCarry := by
  refine fun x y s => ⟨_, rfl, fun hx => ?_, ?_, registersOnly_setResultAndFlag s x _ _⟩
  · rw [getV_advance, getV_setResultAndFlag_dst s _ _ hx, toNat_addByte]
  · rw [getV_advance, getV_setResultAndFlag_vf, carryOut, flagByte_decide]

/-- Settles O25: SUB and SUBN are one subtraction, with the operands in the one and in the other order. -/
theorem subtractsReportNoBorrow : Obligations.SubtractsReportNoBorrow := fun x y s =>
  ⟨⟨_, rfl, difference_and_noBorrow s x (getV s x) (getV s y) rfl⟩,
    ⟨_, rfl, difference_and_noBorrow s x (getV s y) (getV s x) rfl⟩⟩

/-- Settles O26: the source is the operand of the shift, whichever register SHIFT_SOURCE names. -/
theorem shiftsReportTheBitShiftedOut : Obligations.ShiftsReportTheBitShiftedOut := by
  intro x y s src hsrc
  rw [← shiftOperand_eq] at hsrc
  subst hsrc
  refine ⟨⟨_, rfl, fun hx => ?_, ?_, registersOnly_setResultAndFlag s x _ _⟩,
    ⟨_, rfl, fun hx => ?_, ?_, registersOnly_setResultAndFlag s x _ _⟩⟩
  · rw [getV_advance, getV_setResultAndFlag_dst s _ _ hx, toNat_shiftRight_one]
  · rw [getV_advance, getV_setResultAndFlag_vf, toNat_flagByte_bitOutRight]
  · rw [getV_advance, getV_setResultAndFlag_dst s _ _ hx, toNat_shiftLeft_one]
  · rw [getV_advance, getV_setResultAndFlag_vf, toNat_flagByte_bitOutLeft]

/-- Settles O27: RND writes one register of the state whose count of draws is one up. -/
theorem randomByteIsMasked : Obligations.RandomByteIsMasked := by
  intro x nn s
  obtain ⟨hpc, hregs, hmem, -⟩ :=
    registersOnly_setV { s with draws := s.draws + 1 } x (Config.rand s.draws &&& nn)
  exact ⟨_, rfl, getV_setV_self _ x _, hpc, hregs, hmem, rfl, rfl⟩

end

section
/-! PROOF. The address-register instructions (42_address_register.md): the address that each writes to I as a number, and
the frame that the three share. -/

namespace Sys2Proof.Machine

open Sys2Proof.Safety

/-! ## Addresses as numbers -/

theorem toNat_add_byte (a : Word) (b : Byte) : (a + b.setWidth 16).toNat = (a.toNat + b.toNat) % 65536 := by
  rw [BitVec.toNat_add, BitVec.toNat_setWidth_of_le (by decide)]

/-- The last glyph starts at 0x09B, so the address is not reduced (20_memory.md R53). -/
theorem toNat_glyphAddress (d : Fin 16) : (glyphAddress d).toNat = 0x050 + 5 * d.val := by
  simp only [glyphAddress, BitVec.toNat_ofNat]
  omega

/-! ## Writing I and moving on -/

/-- Writing an address to I and moving PC on changes nothing else. -/
theorem advance_with_i (s : State) {a : Word} {n : Nat} (ha : a.toNat = n) {t : State}
    (ht : advance { s with i := a } = t) :
    t.i.toNat = n ∧ t.pc = s.pc + 2#16 ∧ SameMemory s t ∧ t = { s with i := t.i, pc := t.pc } := by
  subst ht
  exact ⟨ha, rfl, fun _ => rfl, rfl⟩

end Sys2Proof.Machine

open Sys2Proof Sys2Proof.Machine

/-- Settles O28: LD I writes the 12-bit address widened, ADD I the sum modulo 2^16. -/
theorem addressLoadAndAddWriteI : Obligations.AddressLoadAndAddWriteI := fun nnn x s =>
  ⟨⟨_, rfl, advance_with_i s (toNat_addressOf nnn) rfl⟩,
    ⟨_, rfl, advance_with_i s (toNat_add_byte s.i (getV s x)) rfl⟩⟩

/-- Settles O29: the digit is the low nibble, the remainder modulo 16. -/
theorem glyphAddressIsBasePlusFiveTimesDigit : Obligations.GlyphAddressIsBasePlusFiveTimesDigit := fun x s =>
  ⟨_, rfl, advance_with_i s (toNat_glyphAddress (lowNibble (getV s x))) rfl⟩

end

section
/-! PROOF. The memory block instructions (43_memory_block.md): the faults by the range of I, the word that each fault
records, and what a byte or a register reads as after a block is stored or loaded. -/

namespace Sys2Proof.Machine

open Sys2Proof.Safety

/-! ## Faults and effects -/

theorem exec_of_raisedFault {i : Instr} {s : State} {c : Cause} {a : Nat} (h : raisedFault i s = some (c, a)) :
    exec i s = .next (enterFault s c (encode i) a) := by
  rw [exec_eq, h]

theorem exec_of_raisedFault_none {i : Instr} {s : State} (h : raisedFault i s = none) :
    exec i s = .next (effect i s) := by
  rw [exec_eq, h]

theorem blockStoreFault_of_gt {a d : Nat} (h : a + d > 0xFFF) :
    blockStoreFault a d = some (.addressOutOfRange, max a 0x1000) := if_pos h

/-- A block of at most 16 bytes that starts below 0x200 does not reach the end of memory. -/
theorem blockStoreFault_of_lt {a d : Nat} (hd : d ≤ 15) (h : a < 0x200) :
    blockStoreFault a d = some (.writeProtected, a) := by
  rw [blockStoreFault, if_neg (by omega), if_pos h]

theorem blockStoreFault_of_bounds {a d : Nat} (hlow : 0x200 ≤ a) (hhigh : a + d ≤ 0xFFF) : blockStoreFault a d = none := by
  rw [blockStoreFault, if_neg (by omega), if_neg (by omega)]

/-- A format with a register and a fixed last byte is the word with that register and those fixed bits. -/
theorem formatXNN_eq_wordX (op : BitVec 4) (x : Reg) (nn : Byte) :
    formatXNN op x nn = wordX (op.toNat * 0x1000 + nn.toNat) x := by
  apply BitVec.eq_of_toNat_eq
  rw [toNat_formatXNN, wordX, BitVec.toNat_ofNat]
  omega

theorem encode_storeRegs (x : Reg) : encode (.storeRegs x) = wordX 0xF055 x := formatXNN_eq_wordX 0xF#4 x 0x55#8

theorem encode_loadRegs (x : Reg) : encode (.loadRegs x) = wordX 0xF065 x := formatXNN_eq_wordX 0xF#4 x 0x65#8

theorem encode_ldBVx (x : Reg) : encode (.ldBVx x) = wordX 0xF033 x := formatXNN_eq_wordX 0xF#4 x 0x33#8

/-- The two faults of an instruction that stores the `d + 1` bytes at I (R150, R152). -/
theorem exec_blockStore_faults {i : Instr} {s : State} {d : Nat} {w : Word}
    (hf : raisedFault i s = blockStoreFault s.i.toNat d) (hd : d ≤ 15) (hw : encode i = w) :
    (s.i.toNat + d > 0xFFF → exec i s = .next (enterFault s .addressOutOfRange w (max s.i.toNat 0x1000))) ∧
      (s.i.toNat < 0x200 → exec i s = .next (enterFault s .writeProtected w s.i.toNat)) := by
  subst hw
  exact ⟨fun h => exec_of_raisedFault (hf.trans (blockStoreFault_of_gt h)),
    fun h => exec_of_raisedFault (hf.trans (blockStoreFault_of_lt hd h))⟩

/-! ## A block stored -/

theorem memRead_memSetBytes_add (m : Memory) {a k : Nat} (bs : List Byte) (h : a + k ≤ 0xFFF) :
    memRead (memSetBytes m a bs) (a + k) = .ok (bs.getD k (memGet m (a + k))) := by
  rw [memRead_of_le _ h, memGet_memSetBytes_add]

theorem memGet_memSetBytes_of_ge (m : Memory) {a c : Nat} (bs : List Byte) (h : a + bs.length ≤ c) :
    memGet (memSetBytes m a bs) c = memGet m c := by
  rw [memGet_memSetBytes, if_pos (by omega), List.getD_eq_default _ _ (by omega)]

theorem sameMemoryOutside_memSetBytes {s t : State} {a : Nat} {bs : List Byte} (h : t.mem = memSetBytes s.mem a bs) :
    SameMemoryOutside a bs.length s t := by
  rintro c (hlow | hhigh) <;> rw [h] <;> apply memRead_congr
  · exact memGet_memSetBytes_of_lt s.mem bs hlow
  · exact memGet_memSetBytes_of_ge s.mem bs hhigh

/-- What an instruction that stores a block of `n` bytes and goes on leaves alone. -/
theorem frame_memSetBytes (s : State) (a : Nat) (bs : List Byte) {n : Nat} (hn : bs.length = n) {t : State}
    (ht : advance { s with mem := memSetBytes s.mem a bs } = t) :
    SameMemoryOutside a n s t ∧ t.pc = s.pc + 2#16 ∧ t = { s with mem := t.mem, pc := t.pc } := by
  subst hn ht
  exact ⟨sameMemoryOutside_memSetBytes rfl, rfl, rfl⟩

/-- A byte has at most three decimal digits, so each of them is a byte (R152). -/
theorem decimalDigits_toNat (b : Byte) :
    ∃ h z o : Byte, decimalDigits b = [h, z, o] ∧
      h.toNat = b.toNat / 100 ∧ z.toNat = b.toNat / 10 % 10 ∧ o.toNat = b.toNat % 10 := by
  have hb := b.isLt
  refine ⟨_, _, _, rfl, ?_, ?_, ?_⟩ <;> exact (BitVec.toNat_ofNat _ 8).trans (Nat.mod_eq_of_lt (by omega))

/-! ## A block loaded -/

theorem getV_effect_loadRegs {x k : Reg} (s : State) (h : k ≤ x) :
    getV (effect (.loadRegs x) s) k = memGet s.mem (s.i.toNat + k.val) := by
  have hk : k.val < x.val + 1 := Nat.lt_succ_of_le h
  rw [effect, getV_advance, getV_setVs, List.getD_eq_getElem _ _ (by simpa using hk), List.getElem_map,
    List.getElem_range]

theorem getV_effect_loadRegs_of_lt {x k : Reg} (s : State) (h : x < k) :
    getV (effect (.loadRegs x) s) k = getV s k :=
  effect_onlyRegs (.loadRegs x) s k (by simpa [writtenRegs] using h)

end Sys2Proof.Machine

open Sys2Proof Sys2Proof.Machine

/-- Settles O30: the block is the values of V0 to Vx, so its byte `k` above I is V[k]. -/
theorem storeRegistersWritesBlockOrFaults : Obligations.StoreRegistersWritesBlockOrFaults := by
  intro x s
  obtain ⟨hrange, hprotected⟩ :=
    exec_blockStore_faults (i := .storeRegs x) (s := s) rfl (Nat.le_of_lt_succ x.isLt) (encode_storeRegs x)
  refine ⟨hrange, hprotected, fun hlow hhigh =>
    ⟨_, exec_storeRegs_of_bounds x s hlow hhigh, fun k hk => ?_, frame_memSetBytes s _ _ (length_valuesUpTo s x) rfl⟩⟩
  have hkx : k.val ≤ x.val := hk
  rw [advance_mem, memRead_memSetBytes_add _ _ (by omega), getD_valuesUpTo s x k hk]

/-- Settles O31: V0 to Vx receive the bytes at I upward, and the effect writes no other register. -/
theorem loadRegistersReadsBlockOrFaults : Obligations.LoadRegistersReadsBlockOrFaults := by
  refine fun x s => ⟨fun hrange => ?_, fun hhigh => ?_⟩
  · rw [← encode_loadRegs]
    exact exec_of_raisedFault (if_pos hrange)
  · refine ⟨_, exec_of_raisedFault_none (if_neg (by omega)), fun k hk => ?_,
      fun k hk => getV_effect_loadRegs_of_lt s hk, and_left_comm.mp (frame_setVs s _)⟩
    have hkx : k.val ≤ x.val := hk
    rw [memRead_of_le _ (by omega), getV_effect_loadRegs s hk]

/-- Settles O32: the block is the three digits, in the order of `decimalDigits`. -/
theorem decimalStoreWritesDigitsOrFaults : Obligations.DecimalStoreWritesDigitsOrFaults := by
  intro x s
  obtain ⟨hrange, hprotected⟩ :=
    exec_blockStore_faults (i := .ldBVx x) (s := s) (d := 2) rfl (by decide) (encode_ldBVx x)
  refine ⟨hrange, hprotected, fun hlow hhigh => ?_⟩
  obtain ⟨h, z, o, hdigits, hh, hz, ho⟩ := decimalDigits_toNat (getV s x)
  have hexec := exec_of_raisedFault_none (i := .ldBVx x) (blockStoreFault_of_bounds hlow hhigh)
  rw [effect, hdigits] at hexec
  exact ⟨_, h, z, o, hexec, memRead_memSetBytes_add (k := 0) s.mem _ (by omega),
    memRead_memSetBytes_add (k := 1) s.mem _ (by omega), memRead_memSetBytes_add (k := 2) s.mem _ hhigh, hh, hz, ho,
    frame_memSetBytes s _ [h, z, o] rfl rfl⟩

end

section
/-! PROOF. The display instructions (44_display.md): the canvas that DRW leaves is the sprite's pixels inverted, which two
draws of one sprite undo, and the word that its fault records. -/

namespace Sys2Proof.Machine

open Sys2Proof.Safety

/-! ## DRW in and out of range -/

theorem exec_drw_of_inRange (x y : Reg) {n : BitVec 4} {s : State} (h : InRange s.i.toNat n.toNat) :
    exec (.drw x y n) s = .next (effect (.drw x y n) s) := exec_of_raisedFault_none (if_pos h)

theorem exec_drw_of_not_inRange (x y : Reg) {n : BitVec 4} {s : State} (h : ¬ InRange s.i.toNat n.toNat) :
    exec (.drw x y n) s =
      .next (enterFault s .addressOutOfRange (encode (.drw x y n)) (max s.i.toNat 0x1000)) :=
  exec_of_raisedFault (if_neg h)

theorem encode_drw (x y : Reg) (n : BitVec 4) :
    encode (.drw x y n) = BitVec.ofNat 16 (0xD000 + 0x100 * x.val + 0x10 * y.val + n.toNat) := by
  apply BitVec.eq_of_toNat_eq
  rw [encode, toNat_formatXYN]
  simp only [BitVec.toNat_ofNat]
  omega

/-! ## The sprite of a DRW -/

/-- The pixels that DRW Vx, Vy, n inverts in the state `s`. -/
abbrev DrwHits (x y : Reg) (n : BitVec 4) (s : State) : Fin 64 → Fin 32 → Prop :=
  SpriteHits s.mem s.i.toNat n.toNat (getV s x).toNat (getV s y).toNat

/-- The framebuffer and the flag that DRW leaves are those of a canvas with the sprite's pixels inverted (R165). -/
theorem effect_drw_inverts (x y : Reg) (n : BitVec 4) (s : State) :
    ∃ c : Canvas, Inverts (DrwHits x y n s) { fb := s.fb, collision := false } c ∧
      (effect (.drw x y n) s).fb = c.fb ∧ getV (effect (.drw x y n) s) 15 = flagByte c.collision :=
  ⟨_, inverts_drawn _ _ _ _ _ _ (by omega), rfl, (frame_drawn s _ _).2⟩

/-- Where a sprite lands depends on its coordinates modulo the screen and on its row bytes (R161, R164). -/
theorem spriteHits_congr {m m' : Memory} {base base' n cx cx' cy cy' : Nat} (hx : cx' % 64 = cx % 64)
    (hy : cy' % 32 = cy % 32) (hrows : ∀ r < n, memGet m' (base' + r) = memGet m (base + r)) (px : Fin 64) (py : Fin 32) :
    SpriteHits m' base' n cx' cy' px py ↔ SpriteHits m base n cx cy px py := by
  refine exists_congr fun r => and_congr_right fun hr => exists_congr fun k => and_congr_right fun _ => ?_
  rw [hrows r hr, Nat.add_mod cx', hx, ← Nat.add_mod, Nat.add_mod cy', hy, ← Nat.add_mod]

/-- Rows that read alike are alike where all their addresses exist. -/
theorem memGet_eq_of_memRead_eq {m m' : Memory} {base base' n : Nat} (h : InRange base n) (h' : InRange base' n)
    (hrows : ∀ r < n, memRead m' (base' + r) = memRead m (base + r)) :
    ∀ r < n, memGet m' (base' + r) = memGet m (base + r) := by
  intro r hr
  have hread := hrows r hr
  rw [memRead_of_le _ (by omega), memRead_of_le _ (by omega)] at hread
  exact Except.ok.inj hread

/-! ## A set of pixels inverted twice -/

/-- Inverting the same pixels of the same framebuffer again restores it (R167). -/
theorem Inverts.restores {p : Fin 64 → Fin 32 → Prop} {c d d' e : Canvas} (h : Inverts p c d) (h' : Inverts p d' e)
    (hfb : d'.fb = d.fb) : e.fb = c.fb := by
  refine framebuffer_ext fun px py => ?_
  by_cases hp : p px py
  · rw [h'.hit px py hp, hfb, h.hit px py hp, Bool.not_not]
  · rw [h'.miss px py hp, hfb, h.miss px py hp]

/-- Only a pixel of the set changes. -/
theorem Inverts.mem_of_ne {p : Fin 64 → Fin 32 → Prop} {c d : Canvas} (h : Inverts p c d) {px : Fin 64} {py : Fin 32}
    (hne : pixelAt d.fb px py ≠ pixelAt c.fb px py) : p px py :=
  by_contra fun hp => hne (h.miss px py hp)

end Sys2Proof.Machine

open Sys2Proof Sys2Proof.Machine Sys2Proof.Safety

/-- Settles O34: the canvas of `effect_drw_inverts` starts with no collision, so its collision is that a pixel hit was on. -/
theorem drawXorsSpriteAndReportsCollision : Obligations.DrawXorsSpriteAndReportsCollision := by
  intro x y n s hrange
  obtain ⟨c, hc, hfb, hvf⟩ := effect_drw_inverts x y n s
  have hcollision : c.collision = true ↔ ∃ px py, pixelAt s.fb px py = true ∧ DrwHits x y n s px py := by
    simpa [and_comm] using hc.collision
  refine ⟨_, exec_drw_of_inRange x y hrange, fun px py => ?_, fun hon => ?_, fun hoff => ?_, rfl,
    effect_onlyRegs (.drw x y n) s, fun _ => rfl, rfl⟩
  · rw [hfb]
    exact ⟨hc.hit px py, hc.miss px py⟩
  · rw [hvf, hcollision.mpr hon, flagByte, if_pos rfl]
  · rw [hvf, flagByte, if_neg (mt hcollision.mp hoff)]

/-- Settles O37: the two draws hit the same pixels, so the second inverts back what the first inverted, and a pixel that
the first turned on is one the second hits while it is on. -/
theorem drawingTwiceRestoresTheFramebuffer : Obligations.DrawingTwiceRestoresTheFramebuffer := by
  intro x y x' y' n s t u w hs hu ht hfb hx hy hrows hw
  rw [exec_drw_of_inRange x y hs] at ht
  rw [exec_drw_of_inRange x' y' hu] at hw
  cases ht
  cases hw
  obtain ⟨c, hc, hcfb, -⟩ := effect_drw_inverts x y n s
  obtain ⟨d, hsecond, hdfb, hdvf⟩ := effect_drw_inverts x' y' n u
  have hd : Inverts (DrwHits x y n s) _ d :=
    hsecond.congr (spriteHits_congr hx hy (memGet_eq_of_memRead_eq hs hu hrows))
  rw [hcfb] at hfb ⊢
  refine ⟨hdfb.trans (hc.restores hd hfb), fun ⟨px, py, hoff, hon⟩ => ?_⟩
  have hhit : DrwHits x y n s px py := hc.mem_of_ne (by simp [hoff, hon])
  have hcollision : d.collision = true := hd.collision.mpr (.inr ⟨px, py, hhit, hfb ▸ hon⟩)
  rw [hdvf, hcollision, flagByte, if_pos rfl]

/-- Settles O33: the blank screen has every pixel off. -/
theorem clearTurnsEveryPixelOff : Obligations.ClearTurnsEveryPixelOff := fun _ =>
  ⟨_, rfl, pixelAt_blankScreen, rfl, fun _ => rfl, rfl⟩

/-- Settles O35: the last row's address is not in range, and the word is that of format XYN. -/
theorem drawOutOfRangeFaults : Obligations.DrawOutOfRangeFaults := by
  intro x y n s hpos hlast
  rw [← encode_drw]
  exact exec_drw_of_not_inRange x y (by omega)

/-- Settles O36: with no rows DRW writes the flag of no collision and nothing else. -/
theorem drawOfNoRowsOnlyClearsVF : Obligations.DrawOfNoRowsOnlyClearsVF := fun x y s =>
  ⟨_, exec_drw_of_inRange x y (.inl rfl), getV_setV_self s 15 0x00#8, registersOnly_setV s 15 0x00#8⟩

end

section
/-! PROOF. The input instructions and the key poll (45_input.md): the key that a skip tests, and the one that ends a
wait. -/

namespace Sys2Proof.Machine

/-- The key that SKP and SKNP test is the low nibble, the remainder modulo 16 (R170). -/
theorem lowNibble_eq {b : Byte} {k : Key} (h : k.val = b.toNat % 16) : lowNibble b = k := Fin.ext h.symm

/-! ## A Cycle in a key wait -/

theorem cycle_of_awaitKey {x : Reg} {s : State} (h : s.status = .awaitKey x) : cycle s = .next (pollKey x s) := by
  rw [cycle, h]

theorem pollKey_of_none (x : Reg) {s : State} (h : leastPressed s = none) : pollKey x s = s := by
  rw [pollKey, h]

theorem pollKey_of_some (x : Reg) {s : State} {k : Key} (h : leastPressed s = some k) :
    pollKey x s = { setV s x (BitVec.ofNat 8 k.val) with status := .running } := by
  rw [pollKey, h]

/-- The byte that the poll writes is the key's number, which is at most 15 (R173). -/
theorem toNat_keyByte (k : Key) : (BitVec.ofNat 8 k.val).toNat = k.val :=
  (BitVec.toNat_ofNat _ 8).trans (Nat.mod_eq_of_lt (by omega))

end Sys2Proof.Machine

open Sys2Proof Sys2Proof.Machine

/-- Settles O40: what the poll finds is the least pressed key, or none where no key is pressed. -/
theorem pollTakesTheLeastPressedKey : Obligations.PollTakesTheLeastPressedKey := by
  intro x s hs
  rw [cycle_of_awaitKey hs]
  refine ⟨fun k hk hleast => ?_, fun hnone => ?_⟩
  · have hframe := pollKey_frame x s
    have hregs := pollKey_onlyRegs x s
    rw [pollKey_of_some x ((leastPressed_eq_some s k).mpr ⟨hk, hleast⟩)] at hframe hregs ⊢
    refine ⟨_, rfl, ?_, rfl, hregs, fun _ => rfl, hframe⟩
    exact (congrArg BitVec.toNat (getV_setV_self s x _)).trans (toNat_keyByte k)
  · rw [pollKey_of_none x ((leastPressed_eq_none s).mpr hnone)]

/-- Settles O38: both are skips, on the latch entry of the low nibble and on its negation. -/
theorem keySkipsTestTheLatch : Obligations.KeySkipsTestTheLatch := by
  intro x k s hk
  rw [exec, execSkp, exec, execSknp, lowNibble_eq hk]
  exact ⟨⟨_, rfl, pcOnly_skipIf s .rfl⟩, ⟨_, rfl, pcOnly_skipIf s (by rw [keyPressed, Bool.not_eq_true'])⟩⟩

/-- Settles O39: the wait is entered and PC moved on. -/
theorem waitForKeyEntersAwaitKey : Obligations.WaitForKeyEntersAwaitKey := fun _ _ => rfl

end

section
/-! PROOF. The timer instructions (46_timers.md): a timer is copied to a register, or a register to a timer. -/

open Sys2Proof Sys2Proof.Machine

/-- Settles O41: FX07 writes one register, by `registersOnly_setV`; FX15 and FX18 write one timer and PC, so that the
rest of their state is the old one field by field. -/
theorem timerInstructionsCopy : Obligations.TimerInstructionsCopy := by
  refine fun x s => ⟨?readDelay, ?writeDelay, ?writeSound⟩
  case readDelay => exact ⟨_, rfl, getV_setV_self s x s.dt, registersOnly_setV s x s.dt⟩
  case writeDelay => exact ⟨advance { s with dt := getV s x }, rfl, rfl, rfl, fun _ => rfl, rfl⟩
  case writeSound => exact ⟨advance { s with st := getV s x }, rfl, rfl, rfl, fun _ => rfl, rfl⟩

end

section
/-! PROOF. The Cycle by its status (60_exceptions.md R200 to R202): what it does in FAULTED and where the fetch faults,
beside `cycle_of_awaitKey`, `cycle_of_decoded` and `cycle_of_refused`. -/

namespace Sys2Proof.Machine

theorem cycle_of_faulted {s : State} (h : s.status = .faulted) : cycle s = .next s := by
  rw [cycle, h]

theorem cycle_of_fetch_error {s : State} {a : Nat} (hs : s.status = .running) (hf : fetch s = .error a) :
    cycle s = .next (enterFault s .addressOutOfRange 0x0000#16 a) := by
  simp only [cycle, hs, runInstruction, hf]

end Sys2Proof.Machine

open Sys2Proof Sys2Proof.Machine

/-- Settles O6, one lemma for each status and, in RUNNING, for each outcome of the fetch and the decoder. -/
theorem cycleFollowsTheStatus : Obligations.CycleFollowsTheStatus := fun _ =>
  ⟨cycle_of_faulted, fun _ => cycle_of_awaitKey,
    fun hs => ⟨fun _ => cycle_of_fetch_error hs, fun _ _ => cycle_of_decoded hs, fun _ _ => cycle_of_refused hs⟩⟩

/-- Settles O7: the fetch is the two-byte read at PC, of which `wordReadIsBigEndian` says the rest. -/
theorem fetchReadsTwoBytesOrFaults : Obligations.FetchReadsTwoBytesOrFaults := by
  intro s
  obtain ⟨hbelow, hlast, habove⟩ := wordReadIsBigEndian s.mem s.pc.toNat
  exact ⟨hbelow, fun hs hpc => cycle_of_fetch_error hs (hlast hpc), fun hs hpc => cycle_of_fetch_error hs (habove hpc)⟩

end

section
/-! PROOF. Fault entry (60_exceptions.md R203, R204, R207, R208): an instruction that ends FAULTED has raised, and a fault
entry changes the status and the record alone. -/

namespace Sys2Proof.Machine

open Sys2Proof.Safety

/-- Only a fault entry makes the status FAULTED. -/
theorem Completes.status_ne_faulted {i : Instr} {s t : State} (h : Completes i s t) (hs : s.status ≠ .faulted) :
    t.status ≠ .faulted := by
  rcases h.status with e | ⟨x, -, e⟩ <;> rw [e]
  · exact hs
  · exact Status.noConfusion

theorem exec_raises_of_faulted {i : Instr} {s t : State} (hs : s.status ≠ .faulted) (h : exec i s = .next t)
    (ht : t.status = .faulted) : ∃ (c : Cause) (a : Nat), Raises i s c ∧ t = enterFault s c (encode i) a :=
  (exec_inv h).resolve_right fun hc => hc.status_ne_faulted hs ht

/-- What a Cycle in RUNNING that ends FAULTED has done: entered a fault of some cycle-fault cause, with the word fetched in
the record, or 0x0000 where the fetch answered none. -/
theorem cycle_enters_fault {s t : State} (hs : s.status = .running) (h : cycle s = .next t) (ht : t.status = .faulted) :
    ∃ (c : Cause) (w : Word) (a : Nat), t = enterFault s c w a ∧ c ≠ .programTooLarge ∧
      (fetch s = .ok w ∨ (w = 0x0000#16 ∧ ∃ e : Nat, fetch s = .error e)) := by
  cases hf : fetch s with
  | error e =>
    rw [cycle_of_fetch_error hs hf] at h
    cases h
    exact ⟨_, _, _, rfl, Cause.noConfusion, .inr ⟨rfl, e, rfl⟩⟩
  | ok w =>
    cases hd : decodeWord w with
    | error e =>
      rw [cycle_of_refused hs hf hd] at h
      cases h
      exact ⟨_, _, _, rfl, Cause.noConfusion, .inl rfl⟩
    | ok i =>
      rw [cycle_of_decoded hs hf hd] at h
      obtain ⟨c, a, hraises, rfl⟩ := exec_raises_of_faulted (by simp [hs]) h ht
      obtain ⟨hword, -⟩ := decodeThenEncodeGivesWordBack w i hd
      exact ⟨c, encode i, a, rfl, hraises.ne_programTooLarge, .inl (by rw [hword])⟩

/-- A block of `d + 1` bytes that ends above 0xFFF is not in range (20_memory.md R58). -/
theorem not_inRange_succ {a d : Nat} (h : a + d > 0xFFF) : ¬ InRange a (d + 1) := by
  unfold InRange
  omega

end Sys2Proof.Machine

open Sys2Proof Sys2Proof.Machine

/-- Settles O9: such a Cycle is a fault entry, by `cycle_enters_fault`, and the fetch has one outcome only. -/
theorem faultingCycleKeepsNothingElse : Obligations.FaultingCycleKeepsNothingElse := by
  intro s t hs h ht
  obtain ⟨c, w, a, rfl, hc, hword⟩ := cycle_enters_fault hs h ht
  refine ⟨rfl, rfl, by simp, by simpa using hc, ?_⟩
  rcases hword with hok | ⟨hzero, e, herr⟩
  · exact ⟨fun w' hf => Except.ok.inj (hok.symm.trans hf), fun e hf => by simp [hok] at hf⟩
  · exact ⟨fun w' hf => by simp [herr] at hf, fun _ _ => hzero⟩

/-- Settles O10: an instruction that ends FAULTED has raised, and `Raises` gives each instruction's reasons. -/
theorem instructionsFaultOnlyWhereTheirRuleRaises : Obligations.InstructionsFaultOnlyWhereTheirRuleRaises := by
  refine ⟨fun i s t hs h ht => ?_, tickTimers_status⟩
  obtain ⟨c, a, hraises, rfl⟩ := exec_raises_of_faulted hs h ht
  simp only [enterFault_record, Option.some.injEq]
  cases i with
  | sys nnn => exact .inl ⟨nnn, rfl, hraises⟩
  | ret => exact .inr (.inl ⟨rfl, hraises⟩)
  | call nnn => exact .inr (.inr (.inl ⟨nnn, rfl, hraises⟩))
  | drw x y n => exact .inr (.inr (.inr (.inl ⟨x, y, n, rfl, hraises⟩)))
  | loadRegs x => exact .inr (.inr (.inr (.inr (.inl ⟨x, rfl, hraises.imp_left not_inRange_succ⟩))))
  | storeRegs x =>
    exact .inr (.inr (.inr (.inr (.inr (.inl ⟨x, rfl, hraises.imp_left (And.imp_left not_inRange_succ)⟩)))))
  | ldBVx x =>
    exact .inr (.inr (.inr (.inr (.inr (.inr ⟨x, rfl, hraises.imp_left (And.imp_left not_inRange_succ)⟩)))))
  | _ => exact absurd hraises id

end

section
/-! PROOF. A step takes the host's next operation and serves it (60_exceptions.md R220; 00_scope.md R17; log 5): what a step
is where that operation is a Cycle, the word that `placeWord` has the next Cycle run, and what no operation but Reset
undoes, FAULTED (R206) and the mark of a LoadProgram (R229). -/

namespace Sys2Proof.Machine

/-! ## A step that serves a Cycle -/

theorem step_eq_serve (s : State) : step s = serve (nextOp s) (takeOp s) := rfl

theorem step_of_nextOp_cycle {s : State} (h : nextOp s = .cycle) : step s = cycle (takeOp s) := by
  rw [step_eq_serve, h, serve]

theorem step_of_cycleOnly {s : State} (hsched : s.sched = []) (hhost : s.host = .cycleOnly) : step s = cycle s := by
  obtain ⟨hnext, htake⟩ := takeOp_of_cycleOnly hsched hhost
  rw [step_of_nextOp_cycle hnext, htake]

/-- Taking an operation changes nothing that the fetch reads. -/
@[simp] theorem fetch_takeOp (s : State) : fetch (takeOp s) = fetch s := by
  rw [fetch, takeOp_mem, takeOp_pc, fetch]

/-! ## A placed word -/

/-- A word can be fetched wherever one is placed (60_exceptions.md R201). -/
theorem toNat_placeAddress_le (s : State) : (placeAddress s).toNat ≤ 0xFFE := by
  unfold placeAddress
  split_ifs with h
  · exact h
  · decide

theorem fetch_placeWord (s : State) (w : Word) : fetch (placeWord s w) = .ok w := by
  refine memReadWord_ok.mpr ⟨toNat_placeAddress_le s, ?_⟩
  have hbyte := fun k : Nat => memGet_memSetBytes_add s.mem (placeAddress s).toNat k [highByte w, lowByte w]
  calc w = wordOfBytes (highByte w) (lowByte w) := (wordOfBytes_highByte_lowByte w).symm
    _ = _ := (congrArg₂ wordOfBytes (hbyte 0) (hbyte 1)).symm

theorem decodeWord_of_decodeTableWord {nbits w : Nat} {i : Instr} (h : decodeTableWord nbits w = some i) :
    decodeWord (tableWord nbits w) = .ok i := by
  rw [decodeTableWord_eq] at h
  cases hd : decodeWord (tableWord nbits w) with
  | error e => simp [hd, Except.toOption] at h
  | ok j => simpa [hd, Except.toOption] using h

/-! ## What only Reset undoes -/

theorem serve_keeps_faulted {op : Config.HostOp} {s t : State} (hs : s.status = .faulted) (hop : op ≠ .reset)
    (h : serve op s = .next t) : t.status = .faulted ∧ t.record = s.record := by
  cases op with
  | reset => exact absurd rfl hop
  | loadProgram bytes =>
    obtain ⟨-, rfl | ⟨-, rfl⟩⟩ := serveLoad_next h <;> exact ⟨hs, rfl⟩
  | cycle =>
    rw [serve, cycle_of_faulted hs] at h
    cases h
    exact ⟨hs, rfl⟩
  | tickTimers | setKey k pressed | observe => cases h; exact ⟨hs, rfl⟩

theorem serveLoad_loaded {bytes : List Byte} {s t : State} (h : serveLoad bytes s = .next t) : t.loaded = true := by
  obtain ⟨-, rfl | ⟨-, rfl⟩⟩ := serveLoad_next h <;> rfl

theorem cycle_loaded {s t : State} (h : cycle s = .next t) : t.loaded = s.loaded := by
  obtain ⟨-, -, -, -, -, hloaded⟩ := noCycleWritesTheKeyLatch s t h
  exact hloaded

theorem serve_keeps_loaded {op : Config.HostOp} {s t : State} (hs : s.loaded = true) (hop : op ≠ .reset)
    (h : serve op s = .next t) : t.loaded = true := by
  cases op with
  | reset => exact absurd rfl hop
  | loadProgram bytes => exact serveLoad_loaded h
  | cycle => exact (cycle_loaded h).trans hs
  | tickTimers | setKey k pressed | observe => cases h; exact hs

end Sys2Proof.Machine

open Sys2Proof Sys2Proof.Machine

/-- Settles O11: no operation but Reset leaves FAULTED, by `serve_keeps_faulted`, and a Cycle there changes nothing. -/
theorem faultedIsLeftByResetOnly : Obligations.FaultedIsLeftByResetOnly := by
  intro s t hs h hop
  have htaken : (takeOp s).status = .faulted := (takeOp_status s).trans hs
  obtain ⟨hstatus, hrecord⟩ := serve_keeps_faulted htaken hop h
  refine ⟨hstatus, hrecord.trans (takeOp_record s), fun hnext => ?_, fun hsched hhost => ?_⟩
  · rw [step_of_nextOp_cycle hnext, cycle_of_faulted htaken] at h
    cases h
    rfl
  · rw [step_of_cycleOnly hsched hhost, cycle_of_faulted hs] at h
    cases h
    rfl

/-- Settles O13: the step of a placed state is a Cycle in RUNNING, which fetches the word placed. -/
theorem placedWordRunsNext : Obligations.PlacedWordRunsNext := by
  intro s nbits w i hd
  rw [step_of_cycleOnly (s := s.withFetchWord nbits w) rfl rfl]
  exact cycle_of_decoded rfl (fetch_placeWord s _) (decodeWord_of_decodeTableWord hd)

/-- Settles O5: the operation taken is a Cycle, which runs what is decoded at the same PC from the same memory. -/
theorem stepRunsTheDecodedInstruction : Obligations.StepRunsTheDecodedInstruction := by
  intro s w i hs hf hd
  have hstep : nextOp s = .cycle → step s = exec i (takeOp s) := fun hnext => by
    rw [step_of_nextOp_cycle hnext]
    exact cycle_of_decoded ((takeOp_status s).trans hs) ((fetch_takeOp s).trans hf) hd
  refine ⟨hstep, fun hsched hhost => ?_, fun rest hsched => ?_⟩
  · exact (step_of_cycleOnly hsched hhost).trans (cycle_of_decoded hs hf hd)
  · obtain ⟨hnext, htake⟩ := takeOp_of_sched hsched
    rw [hstep hnext, htake]

end

section
/-! PROOF. The states in which a LoadProgram is defined (70_reset_and_hazards.md R247; log 6): Reset leads to them, ticks
and key changes keep them, and a first Cycle faults on the empty memory and so ends them. -/

namespace Sys2Proof.Machine

theorem bootReady_resetOp (s : State) : bootReady (resetOp s) = true := bootReady_iff.mpr rfl

theorem bootReady_setKey {s : State} (h : bootReady s = true) (k : Key) (p : Bool) : bootReady (setKey k p s) = true := by
  rw [bootReady_iff] at h ⊢
  rw [h]
  rfl

/-- Both timers are zero there, and a zero timer stays zero. -/
theorem bootReady_tickTimers {s : State} (h : bootReady s = true) : bootReady (tickTimers s) = true := by
  rw [bootReady_iff] at h ⊢
  rw [h]
  rfl

theorem status_of_bootReady {s : State} (h : bootReady s = true) : s.status = .running := by
  rw [bootReady_iff.mp h]
  rfl

/-- The memory is as Reset leaves it, with 0x00 at PC and above. -/
theorem fetch_of_bootReady {s : State} (h : bootReady s = true) : fetch s = .ok 0x0000#16 := by
  rw [bootReady_iff.mp h]
  exact (by decide : fetch State.reset = .ok 0x0000#16)

/-- A Cycle that no load precedes raises UnknownInstruction (30_encoding.md R91). -/
theorem cycle_of_bootReady {s : State} (h : bootReady s = true) :
    cycle s = .next (enterFault s .unknownInstruction 0x0000#16 0) :=
  unassignedAndSysWordsRaiseUnknownInstruction s _ (status_of_bootReady h) (fetch_of_bootReady h) (.inr (by decide))

theorem bootReady_enterFault (s : State) (c : Cause) (w : Word) (a : Nat) : bootReady (enterFault s c w a) = false :=
  Bool.eq_false_iff.mpr fun h => Status.noConfusion (status_of_bootReady h)

theorem bootReady_after_cycle {s t : State} (h : bootReady s = true) (hc : cycle s = .next t) : bootReady t = false := by
  rw [cycle_of_bootReady h] at hc
  cases hc
  exact bootReady_enterFault s _ _ _

/-! ## A LoadProgram served -/

theorem serveLoad_of_not_bootReady {bytes : List Byte} {s : State} (h : bootReady s = false) :
    serveLoad bytes s = .fault .loadOutsideBoot := by
  simp [serveLoad, h]

theorem serveLoad_of_ok {bytes : List Byte} {s t : State} (h : bootReady s = true) (hl : loadProgram bytes s = .ok t) :
    serveLoad bytes s = .next (markLoaded t) := by
  simp [serveLoad, h, hl]

theorem serveLoad_of_error {bytes : List Byte} {s : State} {c : Cause} (h : bootReady s = true)
    (hl : loadProgram bytes s = .error c) : serveLoad bytes s = .next (markLoaded s) := by
  simp [serveLoad, h, hl]

end Sys2Proof.Machine

open Sys2Proof Sys2Proof.Machine

/-- Settles O12: `serve` has an arm for each operation, `takeOp` a lemma for each source of the next one, and `bootReady`
one for what leads to the states of a load, what keeps them and what ends them. -/
theorem stepServesTheHostOperation : Obligations.StepServesTheHostOperation := by
  intro s
  refine ⟨step_eq_serve s, fun _ _ => takeOp_of_sched, takeOp_of_free, takeOp_of_cycleOnly, rfl, rfl, rfl,
    fun _ _ => rfl, rfl, ?load, rfl, ?marked, bootReady_resetOp s, ?window, rfl, rfl, rfl, rfl, rfl⟩
  case load =>
    exact fun bytes => ⟨serveLoad_of_not_bootReady,
      fun hboot => ⟨fun _ => serveLoad_of_ok hboot, fun _ => serveLoad_of_error hboot⟩,
      fun _ h => bootReady_of_loaded (serveLoad_loaded h)⟩
  case marked => exact fun hloaded => ⟨bootReady_of_loaded hloaded, fun _ _ => serve_keeps_loaded hloaded⟩
  case window =>
    exact fun hboot => ⟨bootReady_tickTimers hboot, bootReady_setKey hboot, fun _ => bootReady_after_cycle hboot⟩

end

section
/-! PROOF. TickTimers and SetKey (60_exceptions.md R213, R225): a decrement that stops at zero, and one entry of the
latch. -/

namespace Sys2Proof.Machine

/-- The decrement of one timer as a number (R213). -/
theorem toNat_decrement (b : Byte) : (if b ≠ 0#8 then b - 1#8 else b).toNat = b.toNat - 1 := by
  split_ifs with h
  · bv_omega
  · rw [not_not.mp h]
    rfl

end Sys2Proof.Machine

open Sys2Proof Sys2Proof.Machine

/-- Settles O42: both timers are decremented alike. -/
theorem tickDecrementsEachTimerToZero : Obligations.TickDecrementsEachTimerToZero := fun s =>
  ⟨toNat_decrement s.dt, toNat_decrement s.st, rfl⟩

/-- Settles O43: the entry that a vector's `set` writes, and the others. -/
theorem setKeyWritesOneLatchEntry : Obligations.SetKeyWritesOneLatchEntry := fun k _ _ =>
  ⟨Vector.getElem_set_self k.isLt,
    fun j hj => Vector.getElem_set_ne k.isLt j.isLt fun e => hj (Fin.ext e.symm), rfl⟩

end

section
/-! PROOF. Reset (70_reset_and_hazards.md R240; 10_state.md R45): what each address and each entry of a vector hold after
it, that the machine starts there, and that the invariant holds there. -/

namespace Sys2Proof.Machine

theorem resetByte_outside_fontset {a : Nat} (h : ¬ (0x050 ≤ a ∧ a ≤ 0x09F)) : resetByte a = 0x00#8 := if_neg h

theorem fontset_getElem?_eq_resetByte {j : Nat} (hj : j < 80) : fontset[j]? = some (resetByte (0x050 + j)) := by
  have hlen : j < fontset.length := hj
  rw [resetByte, if_pos (by omega), Nat.add_sub_cancel_left, List.getD_eq_getElem _ _ hlen,
    List.getElem?_eq_getElem hlen]

theorem memRead_reset {a : Nat} (h : a ≤ 0xFFF) : memRead State.reset.mem a = .ok (resetByte a) := memRead_of_le _ h

theorem getV_resetOp (s : State) (r : Reg) : getV (resetOp s) r = 0x00#8 := Vector.getElem_replicate r.isLt

theorem key_resetOp (s : State) (k : Key) : (resetOp s).key[k] = false := Vector.getElem_replicate k.isLt

end Sys2Proof.Machine

open Sys2Proof Sys2Proof.Machine

/-- Settles O45: memory lists nothing after Reset, so that an address reads as its reset byte; the vectors are constant. -/
theorem resetLeavesTheStatedValues : Obligations.ResetLeavesTheStatedValues := by
  refine fun s => ⟨_, rfl, getV_resetOp s, rfl, rfl, rfl, rfl, rfl, fun a ha hout => ?zeros, fun j hj => ?font,
    pixelAt_blankScreen, key_resetOp s, rfl, rfl⟩
  case zeros => exact (memRead_reset ha).trans (congrArg _ (resetByte_outside_fontset hout))
  case font => exact ⟨_, fontset_getElem?_eq_resetByte hj, memRead_reset (by omega)⟩

/-- Settles O46: each field is the constant that `State.reset` gives it. -/
theorem machineStartsAtReset : Obligations.MachineStartsAtReset := ⟨rfl, rfl, rfl, rfl, rfl, rfl⟩

/-- Settles O53: Reset leads to states of the invariant, and leaves this one as it is. -/
theorem invariantHoldsAtReset : Obligations.InvariantHoldsAtReset := inv_resetOp State.reset

end

section
/-! PROOF. LoadProgram (70_reset_and_hazards.md R245, R246): the block of bytes it copies, and the limit on its length. -/

namespace Sys2Proof.Machine

theorem loadProgram_of_gt {bytes : List Byte} (s : State) (h : bytes.length > 3584) :
    loadProgram bytes s = .error .programTooLarge := if_pos h

/-- A byte of a block written is read back at its place. -/
theorem memRead_memSetBytes_of_getElem? (m : Memory) {a j : Nat} {bs : List Byte} {b : Byte} (hb : bs[j]? = some b)
    (h : a + bs.length ≤ 0x1000) : memRead (memSetBytes m a bs) (a + j) = .ok b := by
  obtain ⟨hj, -⟩ := List.getElem?_eq_some_iff.mp hb
  rw [memRead_memSetBytes_add m bs (by omega), List.getD_eq_getElem?_getD, hb, Option.getD_some]

end Sys2Proof.Machine

open Sys2Proof Sys2Proof.Machine

/-- Settles O44: 3584 bytes from 0x200 upward end at 0xFFF, so every byte copied stands at an address that exists. -/
theorem loadProgramCopiesOrIsTooLarge : Obligations.LoadProgramCopiesOrIsTooLarge := by
  refine fun bytes s => ⟨loadProgram_of_gt s, fun hlen => ⟨_, loadProgram_ok.mpr ⟨hlen, rfl⟩, fun j b hb => ?copied,
    sameMemoryOutside_memSetBytes rfl, rfl⟩⟩
  case copied => exact memRead_memSetBytes_of_getElem? s.mem hb (by omega)

end

section
/-! PROOF. A jump to itself (70_reset_and_hazards.md R263): its word, and that a jump to PC changes nothing. -/

namespace Sys2Proof.Machine

theorem encode_jp (nnn : BitVec 12) : encode (.jp nnn) = 0x1000#16 ||| nnn.setWidth 16 :=
  BitVec.append_def 0x1#4 nnn

theorem jumpTo_pc_self (s : State) : jumpTo s s.pc = s := rfl

end Sys2Proof.Machine

open Sys2Proof Sys2Proof.Machine

/-- Settles O60: by the round trip of O1 the word is decoded as the jump, whose target is PC. -/
theorem jumpToItselfIsAFixedPoint : Obligations.JumpToItselfIsAFixedPoint := by
  intro s a hs hpc hf
  have hd : decodeWord (encode (.jp a)) = .ok (.jp a) := encodeThenDecodeGivesInstructionBack (.jp a) rfl
  have htarget : addressOf a = s.pc := BitVec.eq_of_toNat_eq ((toNat_addressOf a).trans hpc.symm)
  rw [encode_jp] at hd
  rw [cycle_of_decoded hs hf hd, exec, execJp, htarget, jumpTo_pc_self]

end
